-- ==== Sys2Proof/Word.lean ====
section
/-! DEFINITION. The word types of the engine (00_scope.md R6, R8): 32-bit words, bytes, the two-word block, the
sub-key pair of one round and the four-word key. All arithmetic on words is that of `BitVec 32`: unsigned, modulo
2^32, logical shifts (R9). -/

namespace Sys2Proof

/-- A 32-bit unsigned word, the `u32` of R8. -/
abbrev Word := BitVec 32

/-- A byte of memory (20_memory.md R51). -/
abbrev Byte := BitVec 8

/-- A block: two words (00_scope.md R6). -/
structure Block where
  v0 : Word
  v1 : Word
deriving DecidableEq, Repr

/-- The sub-key pair of one round: `a` the even, `b` the odd sub-key (00_scope.md, glossary; 10_state.md R41). -/
structure SubKeys where
  a : Word
  b : Word
deriving DecidableEq, Repr

/-- A key: four words (10_state.md R34). -/
abbrev Key := Vector Word 4

end Sys2Proof
end

