-- ==== Sys2Proof/Fields.lean ====
section
/-! DEFINITION. The fields the host writes: the fields of a command word (30_encoding.md R71) and of a register
transaction (R70), with the names of their values (R73, R74). -/

namespace Sys2Proof

/-- The fields of a command word, format C (30_encoding.md R71), as bits. -/
structure CommandFields where
  op    : BitVec 4
  ksrc  : BitVec 2
  order : BitVec 1
  rsv   : BitVec 25
deriving DecidableEq, Repr

/-- Where sub-keys come from: the named values of KSRC (30_encoding.md R73). -/
inductive KeySource where
  | raw
  | flat
  | paired
deriving DecidableEq, Repr

/-- The loop order of a buffer command: the values of ORDER (30_encoding.md R74). -/
inductive LoopOrder where
  | blockMajor
  | roundMajor
deriving DecidableEq, Repr

/-- The direction of a transform (42_loop_strategy.md, section 2). -/
inductive Direction where
  | encrypt
  | decrypt
deriving DecidableEq, Repr

/-- The direction of a register access (30_encoding.md R70). -/
inductive AccessDir where
  | rd
  | wr
deriving DecidableEq, Repr

/-- A host register access, format H (30_encoding.md R70). `wdata` means nothing for a read. -/
structure Transaction where
  dir    : AccessDir
  offset : BitVec 12
  size   : Nat
  wdata  : Word
deriving DecidableEq, Repr

/-- The causes for which a command word is illegal (60_exceptions.md R202). The engine reports one code, ILLEGAL,
for all of them; the names are the model's (log entry 9). -/
inductive DecodeError where
  /-- RSV, bits 31:7, is not zero. -/
  | reservedBits
  /-- OP is not one of 1..6. -/
  | badOp
  /-- KSRC is 3. -/
  | badKeySource
  /-- EXPF or EXPP with KSRC or ORDER not 0. -/
  | qualifiedExpand
  /-- ENCB or DECB with ORDER not 0. -/
  | orderedBlock
  /-- The text handed to the byte decoder is not the four bytes of one word (R70: an access of 4 bytes). -/
  | wrongLength
deriving DecidableEq, Repr

end Sys2Proof
end

