-- ==== Sys2Proof/Machine/BlockTransform.lean ====
section
/-! DEFINITION. The block transform (41_block_transform.md R120-R126): the mixing function, one round in each
direction with the grouping of conflict C1, and the 32 rounds over a sub-key function. -/

namespace Sys2Proof.Machine

/-- F(v) = ((v << 4) ^ (v >> 5)) + v (41_block_transform.md R120). -/
def mixF (v : Word) : Word := ((v <<< 4) ^^^ (v >>> 5)) + v

/-- EncRound (41_block_transform.md R121): the second half-update reads the new v0. -/
def encRound (blk : Block) (k : SubKeys) : Block :=
  let v0 := blk.v0 + (mixF blk.v1 ^^^ k.a)
  { v0 := v0, v1 := blk.v1 + (mixF v0 ^^^ k.b) }

/-- DecRound (41_block_transform.md R122): the odd update is undone first. -/
def decRound (blk : Block) (k : SubKeys) : Block :=
  let v1 := blk.v1 - (mixF blk.v0 ^^^ k.b)
  { v0 := blk.v0 - (mixF v1 ^^^ k.a), v1 := v1 }

/-- Round(dir, ...) (42_loop_strategy.md, section 2). -/
def roundStep : Direction → Block → SubKeys → Block
  | .encrypt => encRound
  | .decrypt => decRound

/-- Rounds(dir): 0 .. 31 to encrypt, 31 .. 0 to decrypt (42_loop_strategy.md, section 2). -/
def roundsOf : Direction → List (Fin 32)
  | .encrypt => List.finRange 32
  | .decrypt => (List.finRange 32).reverse

/-- EncryptBlock or DecryptBlock over a sub-key function (41_block_transform.md R124, R125). -/
def transformBlock (dir : Direction) (sk : Fin 32 → SubKeys) (blk : Block) : Block :=
  (roundsOf dir).foldl (fun b r => roundStep dir b (sk r)) blk

/-- EncryptBlock (41_block_transform.md R124). -/
def encryptBlock (sk : Fin 32 → SubKeys) (blk : Block) : Block := transformBlock .encrypt sk blk

/-- DecryptBlock (41_block_transform.md R125). -/
def decryptBlock (sk : Fin 32 → SubKeys) (blk : Block) : Block := transformBlock .decrypt sk blk

end Sys2Proof.Machine
end

