-- ==== Sys2Proof/Syntax.lean ====
section
/-! DEFINITION. The instruction set: the 20 legal command words (30_encoding.md R82), one constructor per row of
spec/opcode_table.json. A command word carries no operand; its operands are registers (R77). -/

namespace Sys2Proof

/-- The command words of 30_encoding.md R82. -/
inductive Instr where
  /-- EXPF, 40_key_schedule.md R106. -/
  | expf
  /-- EXPP, 40_key_schedule.md R107. -/
  | expp
  /-- ENCB.RAW, 41_block_transform.md R130. -/
  | encbRaw
  /-- ENCB.FLAT, 41_block_transform.md R131. -/
  | encbFlat
  /-- ENCB.PAIRED, 41_block_transform.md R132. -/
  | encbPaired
  /-- DECB.RAW, 41_block_transform.md R134. -/
  | decbRaw
  /-- DECB.FLAT, 41_block_transform.md R135. -/
  | decbFlat
  /-- DECB.PAIRED, 41_block_transform.md R136. -/
  | decbPaired
  /-- ENC.RAW.BM, 42_loop_strategy.md R158. -/
  | encRawBm
  /-- ENC.FLAT.BM, 42_loop_strategy.md R159. -/
  | encFlatBm
  /-- ENC.PAIRED.BM, 42_loop_strategy.md R160. -/
  | encPairedBm
  /-- ENC.RAW.RM, 42_loop_strategy.md R161. -/
  | encRawRm
  /-- ENC.FLAT.RM, 42_loop_strategy.md R162. -/
  | encFlatRm
  /-- ENC.PAIRED.RM, 42_loop_strategy.md R163. -/
  | encPairedRm
  /-- DEC.RAW.BM, 42_loop_strategy.md R165. -/
  | decRawBm
  /-- DEC.FLAT.BM, 42_loop_strategy.md R166. -/
  | decFlatBm
  /-- DEC.PAIRED.BM, 42_loop_strategy.md R167. -/
  | decPairedBm
  /-- DEC.RAW.RM, 42_loop_strategy.md R168. -/
  | decRawRm
  /-- DEC.FLAT.RM, 42_loop_strategy.md R169. -/
  | decFlatRm
  /-- DEC.PAIRED.RM, 42_loop_strategy.md R170. -/
  | decPairedRm
deriving DecidableEq, Repr

end Sys2Proof
end

