-- ==== Sys2Proof/WellFormed.lean ====
section
/-! DEFINITION. What the host may write: the legality of a command word's fields (30_encoding.md R76) and of a
register transaction (R70). An `Instr` has no operand, so its only check is that of its fields
(`Instr.wellFormed` in Decode.lean). -/

namespace Sys2Proof

/-- The first condition of R76 (with R75): no reserved bit is set. -/
def CommandFields.reservedClear (f : CommandFields) : Bool := f.rsv == 0

/-- The second condition of R76: OP is one of 1..6. -/
def CommandFields.opKnown (f : CommandFields) : Bool := 1 ≤ f.op.toNat && f.op.toNat ≤ 6

/-- The third condition of R76: KSRC is not 3. -/
def CommandFields.keySourceKnown (f : CommandFields) : Bool := f.ksrc != 3

/-- The fourth condition of R76: EXPF and EXPP take no qualifier. -/
def CommandFields.expandPlain (f : CommandFields) : Bool :=
  !(f.op == 1 || f.op == 2) || (f.ksrc == 0 && f.order == 0)

/-- The fifth condition of R76: ENCB and DECB take no order. -/
def CommandFields.blockUnordered (f : CommandFields) : Bool :=
  !(f.op == 3 || f.op == 4) || f.order == 0

/-- Legality of a command word, `legal(w)` of 30_encoding.md R76. -/
def CommandFields.legal (f : CommandFields) : Bool :=
  f.reservedClear && f.opKnown && f.keySourceKnown && f.expandPlain && f.blockUnordered

/-- Legality of a host register access (30_encoding.md R70; 20_memory.md R55): 32 bits wide, at a multiple of 4. -/
def Transaction.legal (t : Transaction) : Bool := t.size == 4 && t.offset.extractLsb' 0 2 == 0

end Sys2Proof
end

