-- ==== Sys2Proof/Decode.lean ====
section
/-! DEFINITION. The decoder of command words, total on all 2^32 words (30_encoding.md R83), rejecting by name, and
the encoder, from the table of R82. A word reaches the engine as the four bytes of one 32-bit access, bit 0 of the
word in bit 0 of byte 0 (10_state.md R21). -/

namespace Sys2Proof

/-- The fields of a word (30_encoding.md R71). -/
def splitFields (w : Word) : CommandFields :=
  { op := w.extractLsb' 0 4, ksrc := w.extractLsb' 4 2, order := w.extractLsb' 6 1, rsv := w.extractLsb' 7 25 }

/-- The word of some fields: the pattern of 30_encoding.md R71, bit 31 first. -/
def joinFields (f : CommandFields) : Word := f.rsv ++ f.order ++ f.ksrc ++ f.op

/-- The name of the first condition of 30_encoding.md R76 that fails (the causes of 60_exceptions.md R202). -/
def illegalCause (f : CommandFields) : DecodeError :=
  if !f.reservedClear then .reservedBits
  else if !f.opKnown then .badOp
  else if !f.keySourceKnown then .badKeySource
  else if !f.expandPlain then .qualifiedExpand
  else .orderedBlock

/-- The decoder, `decode(w)` of 30_encoding.md R83 with the rows of R82. -/
def decode (w : Word) : Except DecodeError Instr :=
  let f := splitFields w
  if f.legal then
    match f.op.toNat, f.ksrc.toNat, f.order.toNat with
    | 1, _, _ => .ok .expf
    | 2, _, _ => .ok .expp
    | 3, 0, _ => .ok .encbRaw
    | 3, 1, _ => .ok .encbFlat
    | 3, 2, _ => .ok .encbPaired
    | 4, 0, _ => .ok .decbRaw
    | 4, 1, _ => .ok .decbFlat
    | 4, 2, _ => .ok .decbPaired
    | 5, 0, 0 => .ok .encRawBm
    | 5, 1, 0 => .ok .encFlatBm
    | 5, 2, 0 => .ok .encPairedBm
    | 5, 0, 1 => .ok .encRawRm
    | 5, 1, 1 => .ok .encFlatRm
    | 5, 2, 1 => .ok .encPairedRm
    | 6, 0, 0 => .ok .decRawBm
    | 6, 1, 0 => .ok .decFlatBm
    | 6, 2, 0 => .ok .decPairedBm
    | 6, 0, 1 => .ok .decRawRm
    | 6, 1, 1 => .ok .decFlatRm
    | 6, 2, 1 => .ok .decPairedRm
    | _, _, _ => .error (illegalCause f)
  else .error (illegalCause f)

/-- The fields of each command word, from the columns OP, KSRC and ORDER of 30_encoding.md R82. -/
def Instr.fields : Instr → CommandFields
  | .expf        => { op := 1, ksrc := 0, order := 0, rsv := 0 }
  | .expp        => { op := 2, ksrc := 0, order := 0, rsv := 0 }
  | .encbRaw     => { op := 3, ksrc := 0, order := 0, rsv := 0 }
  | .encbFlat    => { op := 3, ksrc := 1, order := 0, rsv := 0 }
  | .encbPaired  => { op := 3, ksrc := 2, order := 0, rsv := 0 }
  | .decbRaw     => { op := 4, ksrc := 0, order := 0, rsv := 0 }
  | .decbFlat    => { op := 4, ksrc := 1, order := 0, rsv := 0 }
  | .decbPaired  => { op := 4, ksrc := 2, order := 0, rsv := 0 }
  | .encRawBm    => { op := 5, ksrc := 0, order := 0, rsv := 0 }
  | .encFlatBm   => { op := 5, ksrc := 1, order := 0, rsv := 0 }
  | .encPairedBm => { op := 5, ksrc := 2, order := 0, rsv := 0 }
  | .encRawRm    => { op := 5, ksrc := 0, order := 1, rsv := 0 }
  | .encFlatRm   => { op := 5, ksrc := 1, order := 1, rsv := 0 }
  | .encPairedRm => { op := 5, ksrc := 2, order := 1, rsv := 0 }
  | .decRawBm    => { op := 6, ksrc := 0, order := 0, rsv := 0 }
  | .decFlatBm   => { op := 6, ksrc := 1, order := 0, rsv := 0 }
  | .decPairedBm => { op := 6, ksrc := 2, order := 0, rsv := 0 }
  | .decRawRm    => { op := 6, ksrc := 0, order := 1, rsv := 0 }
  | .decFlatRm   => { op := 6, ksrc := 1, order := 1, rsv := 0 }
  | .decPairedRm => { op := 6, ksrc := 2, order := 1, rsv := 0 }

/-- The encoder: the word of an instruction (30_encoding.md R82). -/
def encode (i : Instr) : Word := joinFields i.fields

/-- The syntax check of an instruction: its fields are those of a legal word (30_encoding.md R76). -/
def Instr.wellFormed (i : Instr) : Bool := i.fields.legal

/-- The key source an instruction names (30_encoding.md R73); RAW for EXPF and EXPP, whose KSRC is 0. -/
def Instr.keySource (i : Instr) : KeySource :=
  if i.fields.ksrc = 1 then .flat else if i.fields.ksrc = 2 then .paired else .raw

/-- The loop order an instruction names (30_encoding.md R74). -/
def Instr.loopOrder (i : Instr) : LoopOrder := if i.fields.order = 1 then .roundMajor else .blockMajor

/-- ENCB and DECB (OP 3 and 4, 30_encoding.md R72): the commands that read and write V0 and V1. -/
def Instr.isBlock (i : Instr) : Bool := i.fields.op == 3 || i.fields.op == 4

/-- ENC and DEC (OP 5 and 6, 30_encoding.md R72): the commands that use memory. -/
def Instr.isBuffer (i : Instr) : Bool := i.fields.op == 5 || i.fields.op == 6

/-- The four bytes of a word, byte 0 first (10_state.md R21). -/
def bytesOfWord (w : Word) : List Byte :=
  [w.extractLsb' 0 8, w.extractLsb' 8 8, w.extractLsb' 16 8, w.extractLsb' 24 8]

/-- The decoder on the bytes of an access: one whole word or a refusal by name. -/
def decodeBytes : List Byte → Except DecodeError Instr
  | [b0, b1, b2, b3] => decode (b3 ++ b2 ++ b1 ++ b0)
  | _ => .error .wrongLength

/-- The decoder on a table row's bits, as the host asks: the bits above `nbits` are zero, and a number that does not
fit one 32-bit command word is no instruction (30_encoding.md R78: every command is one word). -/
def decodeTableWord (nbits w : Nat) : Option Instr :=
  if w % 2 ^ nbits < 2 ^ 32 then
    match decodeBytes (bytesOfWord (BitVec.ofNat 32 (w % 2 ^ nbits))) with
    | .ok i => some i
    | .error _ => none
  else none

end Sys2Proof
end

