-- ==== Sys2Proof/Config.lean ====
section
/-! DEFINITION. What the platform fixes and the spec leaves open (00_scope.md R7), and the free values. Nothing in
Lean can evaluate a constant of this file that has no body, so whatever is proved holds for every value of it. -/

namespace Sys2Proof

/-- ENGINE_BASE, the platform address of the register window: an OPEN parameter (00_scope.md R7; 10_state.md R21).
DESIGN CHOICE: the spec gives it no width and no range (ADDR_WIDTH = 32 is the memory port's); the model takes a 32-bit
word. No step reads it. Log entry 6. -/
opaque Config.engineBase : Word

/-- Draw number k of a 32-bit word: a value under no law (93_implementation_defined.md U1, U2, U3). Log entry 8. -/
opaque Config.freeWord : Nat → Word

/-- Draw number k of a byte of memory (93_implementation_defined.md U4, U6). Log entry 8. -/
opaque Config.freeByte : Nat → Byte

/-- Draw number k of a choice among several blocks (93_implementation_defined.md U5). Log entry 8. -/
opaque Config.freeIndex : Nat → Nat

/-- The number of byte addresses of the memory space, ADDR_WIDTH = 32 (00_scope.md R7; 20_memory.md R51). -/
abbrev Config.addressSpace : Nat := 2 ^ 32

end Sys2Proof
end

