-- ==== Sys2Proof/Machine/State.lean ====
section
/-! DEFINITION. The state of the machine, as plain data: every piece of state of 10_state.md (R22, R42, R46), the
memory (20_memory.md R51), the platform's parameters (R58, R60) and the model's own fields: the events still to come,
the answer to the last host access, the counter of draws. With it the reasons a step can stop and the state after
reset. -/

namespace Sys2Proof.Machine

/-- The outcome codes of STATUS.ERR (60_exceptions.md R201). Codes 6..15 are never produced. -/
inductive ErrCode where
  | none
  | illegal
  | noSched
  | range
  | overlap
  | bus
deriving DecidableEq, Repr

/-- The fields of STATUS (10_state.md R25). Bits 7:5 and 31:12 read as 0 and have no storage (R32). -/
structure Status where
  /-- STATUS[0], R26. It is also the hidden `phase` of R42, which equals BUSY. -/
  busy : Bool
  /-- STATUS[1], R27. -/
  done : Bool
  /-- STATUS[2], R28. -/
  fv   : Bool
  /-- STATUS[3], R29. -/
  pv   : Bool
  /-- STATUS[4], R30. -/
  ovr  : Bool
  /-- STATUS[11:8], R31. -/
  err  : ErrCode
deriving DecidableEq, Repr

/-- What the outside world can do between two steps (10_state.md R20): one event is one step. -/
inductive Event where
  /-- The host issues a register access (30_encoding.md R70). -/
  | access (t : Transaction)
  /-- The host reads a byte of memory (20_memory.md R61, R62, R66). -/
  | memRead (addr : Word)
  /-- The host writes a byte of memory (20_memory.md R61, R62, R66). -/
  | memWrite (addr : Word) (b : Byte)
  /-- The moment at which the ENGINE takes its atomic step (10_state.md R42; 70_reset_and_hazards.md R240). -/
  | engine
  /-- The `rst` input (70_reset_and_hazards.md R230). -/
  | reset
deriving DecidableEq, Repr

/-- What the last host access got back (30_encoding.md R70; 60_exceptions.md R210). -/
inductive Response where
  /-- No host access since reset. -/
  | none
  /-- The data of a legal register read. -/
  | data (w : Word)
  /-- A legal register write was taken from the port (whether or not it changed a register). -/
  | written
  /-- The host bus error of a read; its data is unspecified (20_memory.md R55). -/
  | busErrorRead (w : Word)
  /-- The host bus error of a write. -/
  | busErrorWrite
  /-- The data of a host read of memory. -/
  | byte (b : Byte)
  /-- A host write of memory was made. -/
  | byteWritten
deriving DecidableEq, Repr

/-- A range of memory addresses: `size` bytes from `base` on. -/
structure Region where
  base : Nat
  size : Nat
deriving DecidableEq, Repr

/-- The platform's parameters about memory, as plain data (log entry 5). No step changes them. -/
structure Platform where
  /-- The addresses a with MEM_ADMIT(a) = false (20_memory.md R60). -/
  refused     : List Region
  /-- The addresses with read side effects, such as device registers (20_memory.md R58). -/
  sideEffects : List Region
deriving DecidableEq, Repr

/-- Memory: (address, byte) pairs in the canonical form of `Memory.wf` (Machine/Ops.lean). -/
abbrev Memory := List Host.Cell

structure State where
  /-- STATUS (10_state.md R25). -/
  status     : Status
  /-- INTEN.DONEIE (10_state.md R33). -/
  donie      : Bool
  /-- KEY0..KEY3 (10_state.md R34). -/
  key        : Key
  /-- V0 (10_state.md R35). -/
  v0         : Word
  /-- V1 (10_state.md R35). -/
  v1         : Word
  /-- SRC (10_state.md R36). -/
  src        : Word
  /-- DST (10_state.md R36). -/
  dst        : Word
  /-- LEN (10_state.md R37). -/
  len        : Word
  /-- FADDR (10_state.md R38). -/
  faddr      : Word
  /-- RKF[0..63] (10_state.md R40). -/
  rkf        : Vector Word 64
  /-- Whether an EXPF has completed since reset: until then a read of RKF is a draw (10_state.md R40). -/
  rkfWritten : Bool
  /-- RKP[0..31] (10_state.md R41). -/
  rkp        : Vector SubKeys 32
  /-- Whether an EXPP has completed since reset: until then a read of RKP is a draw (10_state.md R41). -/
  rkpWritten : Bool
  /-- The latched command word, hidden (10_state.md R42); it means something only while BUSY. -/
  cmd        : Word
  /-- Memory (20_memory.md R51). -/
  mem        : Memory
  /-- The platform's parameters (20_memory.md R58, R60). -/
  platform   : Platform
  /-- The model's own: the events still to come, oldest first. -/
  inbox      : List Event
  /-- The model's own: what the last host access got back. -/
  response   : Response
  /-- The model's own: how many draws have been made. -/
  draws      : Nat
deriving DecidableEq, Repr

/-- Why the machine stops with a fault. -/
inductive Fault where
  /-- RACE: the host touched a byte of S or Dr while ENC or DEC was BUSY (20_memory.md R66). Raised by `hostRead` and
  `hostWrite` (Machine/Port.lean). Safe: the spec says a model records it as a fault. -/
  | race
deriving DecidableEq, Repr

/-- Why the machine gives no meaning. -/
inductive Refusal where
  /-- An instruction that has no meaning yet. No arm of `exec` raises it. Safe. -/
  | notModelled (mnemonic : String)
  /-- An ENC or DEC that passes its checks and whose ranges cover a location with read side effects: "A model gives it
  no meaning and refuses it" (20_memory.md R58). Raised by `submit` at its CMD write, by `bufferBody`
  (Machine/Buffer.lean) where it was placed without one, and by `resetEvent` (Machine/Ops.lean). Safe. -/
  | sideEffectBuffer
  /-- A host access to a location with read side effects, whose device the spec does not describe (20_memory.md R58).
  Raised by `hostRead` and `hostWrite` (Machine/Port.lean). Safe. -/
  | sideEffectAccess
deriving DecidableEq, Repr

/-- The machine right after reset (10_state.md R46; 70_reset_and_hazards.md R230). The words of RKF and RKP, for which
the spec gives no value, are 0 and marked unwritten (log entry 3); memory lists nothing (log entry 2); the platform
admits every byte and has no side effects (log entry 5). -/
def State.reset : State :=
  { status     := { busy := false, done := false, fv := false, pv := false, ovr := false, err := .none }
    donie      := false
    key        := Vector.replicate 4 0
    v0         := 0
    v1         := 0
    src        := 0
    dst        := 0
    len        := 0
    faddr      := 0
    rkf        := Vector.replicate 64 0
    rkfWritten := false
    rkp        := Vector.replicate 32 { a := 0, b := 0 }
    rkpWritten := false
    cmd        := 0
    mem        := []
    platform   := { refused := [], sideEffects := [] }
    inbox      := []
    response   := .none
    draws      := 0 }

end Sys2Proof.Machine
end

