-- ==== Sys2Proof/Machine/Flags.lean ====
section
/-! DEFINITION. Every flag computation: the STATUS word, its write-1-to-clear bits, the INTEN word and the `irq`
output (10_state.md R25-R33; 60_exceptions.md R201, R212, R213). -/

namespace Sys2Proof.Machine

/-- The number of an outcome code (60_exceptions.md R201). -/
def ErrCode.bits : ErrCode → BitVec 4
  | .none    => 0
  | .illegal => 1
  | .noSched => 2
  | .range   => 3
  | .overlap => 4
  | .bus     => 5

/-- The value a read of STATUS returns (10_state.md R25; the reserved bits are 0, R32). -/
def statusWord (st : Status) : Word :=
  (0 : BitVec 20) ++ st.err.bits ++ (0 : BitVec 3) ++ BitVec.ofBool st.ovr ++ BitVec.ofBool st.pv ++
    BitVec.ofBool st.fv ++ BitVec.ofBool st.done ++ BitVec.ofBool st.busy

/-- A write to STATUS: bit 1 clears DONE, bit 4 clears OVR, every other bit is ignored (10_state.md R25). -/
def writeStatus (w : Word) (st : Status) : Status :=
  { st with done := st.done && !w.getLsbD 1, ovr := st.ovr && !w.getLsbD 4 }

/-- The value a read of INTEN returns: bits 31:1 are 0 (10_state.md R33). -/
def intenWord (donie : Bool) : Word := (0 : BitVec 31) ++ BitVec.ofBool donie

/-- `irq = STATUS.DONE AND INTEN.DONEIE` (60_exceptions.md R212). -/
def State.irq (s : State) : Bool := s.status.done && s.donie

end Sys2Proof.Machine
end

