-- ==== Sys2Proof/Machine/KeySchedule.lean ====
section
/-! DEFINITION. The key schedule (40_key_schedule.md R100-R105): FlatSchedule with its running sum, PairedSchedule,
the sums in closed form, and the sub-keys of the raw key, also in the fused form (41_block_transform.md R127, R137). -/

namespace Sys2Proof.Machine

/-- DELTA (40_key_schedule.md R100). -/
def delta : Word := 0x9E3779B9

/-- The key word KEY[i] (00_scope.md R10). -/
def keyWord (k : Key) (i : BitVec 2) : Word := k[i.toNat]'(by have := i.isLt; omega)

/-- `key[sum & 3]`, the key word of the even sub-key: KEY[sum[1:0]] (30_encoding.md R77). -/
def evenKeyWord (k : Key) (sum : Word) : Word := keyWord k (sum.extractLsb' 0 2)

/-- `key[(sum >> 11) & 3]`, the key word of the odd sub-key: KEY[sum[12:11]] (30_encoding.md R77). -/
def oddKeyWord (k : Key) (sum : Word) : Word := keyWord k (sum.extractLsb' 11 2)

/-- What FlatSchedule emits in `rounds` rounds from a running sum on: even, advance the sum, odd
(40_key_schedule.md R101). -/
def scheduleFrom (k : Key) : (rounds : Nat) → (sum : Word) → List Word
  | 0, _ => []
  | rounds + 1, sum =>
    (sum + evenKeyWord k sum) :: (sum + delta + oddKeyWord k (sum + delta)) :: scheduleFrom k rounds (sum + delta)

/-- Each round emits two words. -/
theorem scheduleFrom_length (k : Key) (rounds : Nat) (sum : Word) :
    (scheduleFrom k rounds sum).length = 2 * rounds := by
  induction rounds generalizing sum with
  | zero => rfl
  | succ n ih => simp only [scheduleFrom, List.length_cons, ih]; omega

/-- FlatSchedule(K), 64 words (40_key_schedule.md R101). -/
def flatSchedule (k : Key) : Vector Word 64 :=
  ⟨(scheduleFrom k 32 0).toArray, by simp [scheduleFrom_length]⟩

/-- PairedSchedule(K), 32 pairs: pair r is (flat[2r], flat[2r+1]) (40_key_schedule.md R103). -/
def pairedSchedule (k : Key) : Vector SubKeys 32 :=
  Vector.ofFn fun r : Fin 32 => { a := (flatSchedule k)[2 * r.val], b := (flatSchedule k)[2 * r.val + 1] }

/-- s_r = (r · DELTA) mod 2^32 (40_key_schedule.md R102). -/
def scheduleSum (r : Nat) : Word := BitVec.ofNat 32 (r * delta.toNat)

/-- SK_RAW(r) (41_block_transform.md R127). -/
def rawSubKeys (k : Key) (r : Fin 32) : SubKeys :=
  { a := scheduleSum r.val + evenKeyWord k (scheduleSum r.val)
    b := scheduleSum (r.val + 1) + oddKeyWord k (scheduleSum (r.val + 1)) }

/-- The fused generation of an encryption: the sum runs up from 0 (41_block_transform.md R137). -/
def fusedUp (k : Key) : (rounds : Nat) → (sum : Word) → List SubKeys
  | 0, _ => []
  | rounds + 1, sum =>
    { a := sum + evenKeyWord k sum, b := sum + delta + oddKeyWord k (sum + delta) } :: fusedUp k rounds (sum + delta)

/-- The fused generation of a decryption: the sum runs down from 32 · DELTA (41_block_transform.md R137). -/
def fusedDown (k : Key) : (rounds : Nat) → (sum : Word) → List SubKeys
  | 0, _ => []
  | rounds + 1, sum =>
    { a := sum - delta + evenKeyWord k (sum - delta), b := sum + oddKeyWord k sum } :: fusedDown k rounds (sum - delta)

end Sys2Proof.Machine
end

