-- ==== Sys2Proof/Machine/Operands.lean ====
section
/-! DEFINITION. Every operand form: the register map (10_state.md R22) and the registers' values, the geometry of a
buffer (42_loop_strategy.md R150), the sub-keys a command reads (41_block_transform.md R127) and the platform's
ranges (20_memory.md R58, R60). -/

namespace Sys2Proof.Machine

/-- The registers of the window (10_state.md R22) and the reserved offsets (R47). -/
inductive Reg where
  | id
  | version
  | status
  | inten
  | key (j : Fin 4)
  | v0
  | v1
  | src
  | dst
  | len
  | faddr
  | cmd
  | rkf (i : Fin 64)
  | rkpA (r : Fin 32)
  | rkpB (r : Fin 32)
  | reserved
deriving DecidableEq, Repr

/-- The register at an offset that is a multiple of 4 (10_state.md R22, R47). -/
def regAt (offset : BitVec 12) : Reg :=
  let o := offset.toNat
  if o = 0x000 then .id
  else if o = 0x004 then .version
  else if o = 0x008 then .status
  else if o = 0x00C then .inten
  else if h : 0x010 ≤ o ∧ o < 0x020 then .key ⟨(o - 0x010) / 4, by omega⟩
  else if o = 0x020 then .v0
  else if o = 0x024 then .v1
  else if o = 0x030 then .src
  else if o = 0x034 then .dst
  else if o = 0x038 then .len
  else if o = 0x03C then .faddr
  else if o = 0x040 then .cmd
  else if h : 0x100 ≤ o ∧ o < 0x200 then .rkf ⟨(o - 0x100) / 4, by omega⟩
  else if h : 0x200 ≤ o ∧ o < 0x300 then
    if o % 8 = 0 then .rkpA ⟨(o - 0x200) / 8, by omega⟩ else .rkpB ⟨(o - 0x200) / 8, by omega⟩
  else .reserved

/-- The offset of a register, from the table of 10_state.md R22; the first reserved offset stands for all (R47). -/
def Reg.offset : Reg → BitVec 12
  | .id       => 0x000
  | .version  => 0x004
  | .status   => 0x008
  | .inten    => 0x00C
  | .key j    => BitVec.ofNat 12 (0x010 + 4 * j.val)
  | .v0       => 0x020
  | .v1       => 0x024
  | .src      => 0x030
  | .dst      => 0x034
  | .len      => 0x038
  | .faddr    => 0x03C
  | .cmd      => 0x040
  | .rkf i    => BitVec.ofNat 12 (0x100 + 4 * i.val)
  | .rkpA r   => BitVec.ofNat 12 (0x200 + 8 * r.val)
  | .rkpB r   => BitVec.ofNat 12 (0x204 + 8 * r.val)
  | .reserved => 0x028

/-- The platform address of a register: the window stands at ENGINE_BASE (10_state.md R21). -/
def Reg.platformAddress (r : Reg) : Nat := Config.engineBase.toNat + r.offset.toNat

/-- The registers whose writes are dropped while BUSY (10_state.md R45). -/
def Reg.isOperand : Reg → Bool
  | .cmd | .key _ | .v0 | .v1 | .src | .dst | .len => true
  | .id | .version | .status | .inten | .faddr | .rkf _ | .rkpA _ | .rkpB _ | .reserved => false

/-- The identification constant (10_state.md R23). -/
def idValue : Word := 0x58544541

/-- The hardware revision (10_state.md R24). -/
def versionValue : Word := 0x00000001

/-- The command the ENGINE is running: the latched word, while BUSY (10_state.md R42). -/
def State.running (s : State) : Option Instr :=
  if s.status.busy then
    match decode s.cmd with
    | .ok i => some i
    | .error _ => none
  else none

/-- Whether the running command is one of some kind. -/
def State.runs (s : State) (kind : Instr → Bool) : Bool := s.running.any kind

/-- The value of a register as the port reads it; `none` is a draw: a register that the running command may be
updating (10_state.md R44), or a store that no expansion has written since reset (R40, R41). CMD and the reserved
offsets read 0 (R39, R47). -/
def readReg (r : Reg) (s : State) : Option Word :=
  match r with
  | .id       => some idValue
  | .version  => some versionValue
  | .status   => some (statusWord s.status)
  | .inten    => some (intenWord s.donie)
  | .key j    => some s.key[j.val]
  | .v0       => if s.runs Instr.isBlock then none else some s.v0
  | .v1       => if s.runs Instr.isBlock then none else some s.v1
  | .src      => some s.src
  | .dst      => some s.dst
  | .len      => some s.len
  | .faddr    => some s.faddr
  | .cmd      => some 0
  | .rkf i    => if s.runs (· == .expf) || !s.rkfWritten then none else some s.rkf[i.val]
  | .rkpA r   => if s.runs (· == .expp) || !s.rkpWritten then none else some s.rkp[r.val].a
  | .rkpB r   => if s.runs (· == .expp) || !s.rkpWritten then none else some s.rkp[r.val].b
  | .reserved => some 0

/-- n = LEN[31:3], the number of whole blocks (30_encoding.md R77; 42_loop_strategy.md R150). It is the latched `n` of
10_state.md R42 while BUSY, because LEN cannot change then (R45). -/
def State.blocks (s : State) : Nat := (s.len.extractLsb' 3 29).toNat

/-- Whether an address lies in S = [SRC, SRC + 8n) (42_loop_strategy.md R150). -/
def State.inSource (s : State) (a : Nat) : Bool := s.src.toNat ≤ a && a < s.src.toNat + 8 * s.blocks

/-- Whether an address lies in Dr = [DST, DST + 8n) (42_loop_strategy.md R150). -/
def State.inDest (s : State) (a : Nat) : Bool := s.dst.toNat ≤ a && a < s.dst.toNat + 8 * s.blocks

/-- SK_RAW, SK_FLAT or SK_PAIRED, by KSRC (41_block_transform.md R127). -/
def State.subKeys (s : State) (ks : KeySource) (r : Fin 32) : SubKeys :=
  match ks with
  | .raw    => rawSubKeys s.key r
  | .flat   => { a := s.rkf[2 * r.val], b := s.rkf[2 * r.val + 1] }
  | .paired => s.rkp[r.val]

/-- The block of the single-block commands: (V0, V1) (30_encoding.md R77). -/
def State.vBlock (s : State) : Block := { v0 := s.v0, v1 := s.v1 }

/-- Whether a range holds an address. -/
def Region.holds (g : Region) (a : Nat) : Bool := g.base ≤ a && a < g.base + g.size

/-- MEM_ADMIT(a) (20_memory.md R60). -/
def Platform.admits (p : Platform) (a : Nat) : Bool := !p.refused.any (·.holds a)

/-- Whether a location has read side effects (20_memory.md R58). -/
def Platform.hasSideEffects (p : Platform) (a : Nat) : Bool := p.sideEffects.any (·.holds a)

/-- Whether a region has an address in common with the `size` bytes from `lo` on. -/
def Region.meets (g : Region) (lo size : Nat) : Bool := max g.base lo < min (g.base + g.size) (lo + size)

/-- Whether S or Dr covers a location with read side effects (20_memory.md R58). -/
def State.coversSideEffects (s : State) : Bool :=
  s.platform.sideEffects.any fun g => g.meets s.src.toNat (8 * s.blocks) || g.meets s.dst.toNat (8 * s.blocks)

/-- Whether the memory refuses a block access at an address: some byte of the block is not admitted
(20_memory.md R60). -/
def Platform.refusesBlock (p : Platform) (a : Nat) : Bool := (List.range 8).any fun k => !p.admits (a + k)

end Sys2Proof.Machine
end

