-- ==== Sys2Proof/Machine/Ops.lean ====
section
/-! DEFINITION. The named operations: memory in its canonical form (20_memory.md R51, R52, R56; 00_scope.md R10),
draws into memory, the checks and the acceptance of a command (60_exceptions.md R209; 10_state.md R49), the ends of a
command (R200, R208), its rejection (R207), the submission of a command word, and reset (70_reset_and_hazards.md R230,
R231). -/

namespace Sys2Proof.Machine

/-! ### Memory -/

/-- What an address that memory does not list reads as (log entry 2). -/
def unlistedByte : Byte := 0

/-- The byte at an address. -/
def Memory.read : Memory → Nat → Byte
  | [], _ => unlistedByte
  | (x, b) :: rest, a => if a < x then unlistedByte else if a = x then b else Memory.read rest a

/-- Put a byte before the cells above its address, unless it is what an unlisted address reads as. -/
def Memory.put (a : Nat) (b : Byte) (rest : Memory) : Memory := if b = unlistedByte then rest else (a, b) :: rest

/-- Write the byte at an address, keeping the canonical form. -/
def Memory.write : Memory → Nat → Byte → Memory
  | [], a, b => Memory.put a b []
  | (x, c) :: rest, a, b =>
    if a < x then Memory.put a b ((x, c) :: rest)
    else if a = x then Memory.put a b rest
    else (x, c) :: Memory.write rest a b

/-- The canonical form from an address on: addresses strictly rising, no cell equal to an unlisted one. -/
def Memory.wfFrom (lo : Nat) : Memory → Bool
  | [] => true
  | (x, b) :: rest => decide (lo ≤ x) && b != unlistedByte && Memory.wfFrom (x + 1) rest

/-- The canonical form of memory. -/
def Memory.wf (m : Memory) : Bool := Memory.wfFrom 0 m

/-- Every listed address is one of the 2^32 of the memory space (20_memory.md R51). -/
def Memory.inSpace (m : Memory) : Bool := m.all fun c => decide (c.1 < Config.addressSpace)

/-- MemRead(addr, 8): bits [8k+7:8k] are the byte at addr + k (00_scope.md R10; 20_memory.md R52). -/
def memRead8 (m : Memory) (a : Nat) : BitVec 64 :=
  m.read (a + 7) ++ m.read (a + 6) ++ m.read (a + 5) ++ m.read (a + 4) ++
    m.read (a + 3) ++ m.read (a + 2) ++ m.read (a + 1) ++ m.read a

/-- MemWrite(addr, 8, v): byte v[8k+7:8k] goes to addr + k (00_scope.md R10; 20_memory.md R52). -/
def memWrite8 (m : Memory) (a : Nat) (v : BitVec 64) : Memory :=
  (List.range 8).foldl (fun m k => m.write (a + k) (v.extractLsb' (8 * k) 8)) m

/-- LoadBlock (42_loop_strategy.md R151): v0 = blk[31:0], v1 = blk[63:32]. -/
def loadBlock (m : Memory) (a : Nat) : Block :=
  { v0 := (memRead8 m a).extractLsb' 0 32, v1 := (memRead8 m a).extractLsb' 32 32 }

/-- StoreBlock (42_loop_strategy.md R151): MemWrite(addr, 8, v1 ++ v0). -/
def storeBlock (m : Memory) (a : Nat) (b : Block) : Memory := memWrite8 m a (b.v1 ++ b.v0)

/-- Make `count` bytes from an address on unspecified: byte j becomes draw number `first + j`
(93_implementation_defined.md U4, U6). -/
def drawBytes (m : Memory) (a count first : Nat) : Memory :=
  (List.range count).foldl (fun m j => m.write (a + j) (Config.freeByte (first + j))) m

/-- Make every byte of Dr = [DST, DST + 8n) unspecified (60_exceptions.md R208; 70_reset_and_hazards.md R231). -/
def State.drawDest (s : State) : State :=
  { s with
    mem := drawBytes s.mem s.dst.toNat (8 * s.blocks) s.draws
    draws := s.draws + 8 * s.blocks }

/-! ### The checks at a CMD write -/

/-- NOSCHED (60_exceptions.md R203): the store that KSRC names is not valid. -/
def State.lacksSchedule (s : State) (ks : KeySource) : Bool :=
  match ks with
  | .raw    => false
  | .flat   => !s.status.fv
  | .paired => !s.status.pv

/-- RANGE (60_exceptions.md R204), in unbounded integers. -/
def State.rangeFails (s : State) : Bool :=
  0 < s.blocks &&
    (Config.addressSpace < s.src.toNat + 8 * s.blocks || Config.addressSpace < s.dst.toNat + 8 * s.blocks)

/-- OVERLAP (60_exceptions.md R205), in unbounded integers. -/
def State.overlapFails (s : State) : Bool :=
  0 < s.blocks && s.src != s.dst && s.src.toNat < s.dst.toNat + 8 * s.blocks &&
    s.dst.toNat < s.src.toNat + 8 * s.blocks

/-- The checks of a legal command word, in the order of 60_exceptions.md R209; `none` is acceptance. -/
def rejection (i : Instr) (s : State) : Option ErrCode :=
  if s.lacksSchedule i.keySource then some .noSched
  else if i.isBuffer && s.rangeFails then some .range
  else if i.isBuffer && s.overlapFails then some .overlap
  else none

/-! ### Acceptance and the ends of a command -/

/-- Acceptance (10_state.md R49): BUSY <- 1, DONE <- 0, ERR <- 0; EXPF clears FV and EXPP clears PV; the word is
latched (R42; 20_memory.md R65). -/
def accept (i : Instr) (s : State) : State :=
  { s with
    status := { s.status with
      busy := true
      done := false
      err := .none
      fv := s.status.fv && i != .expf
      pv := s.status.pv && i != .expp }
    cmd := encode i }

/-- Completion (10_state.md R49): BUSY <- 0, DONE <- 1, ERR stays; the hidden state is discarded (R42). -/
def complete (s : State) : State :=
  { s with status := { s.status with busy := false, done := true }, cmd := 0 }

/-- `raise Error(code, info)` (60_exceptions.md R200): ERR <- code; FADDR <- info if the code is BUS; BUSY <- 0;
DONE <- 1; the hidden state is discarded (10_state.md R42). -/
def raiseError (code : ErrCode) (info : Word) (s : State) : State :=
  { s with
    status := { s.status with busy := false, done := true, err := code }
    faddr := if code = .bus then info else s.faddr
    cmd := 0 }

/-- Rejection at a CMD write with BUSY = 0 (60_exceptions.md R207): DONE <- 1, ERR <- code, and nothing else changes. -/
def reject (code : ErrCode) (s : State) : State := { s with status := { s.status with done := true, err := code } }

/-- A CMD write with BUSY = 0 (10_state.md R39; 60_exceptions.md R209): the word is rejected or accepted at once. An ENC
or DEC that passes the checks and covers a location with read side effects is refused (20_memory.md R58; log entry
12). -/
def submit (w : Word) (s : State) : Host.Outcome State Fault Refusal :=
  match decode w with
  | .error _ => .next (reject .illegal s)
  | .ok i =>
    match rejection i s with
    | some code => .next (reject code s)
    | none => if i.isBuffer && s.coversSideEffects then .refused .sideEffectBuffer else .next (accept i s)

/-- A whole command: the checks, acceptance, then its execution and end (`body`), as one atomic step
(10_state.md R42; 70_reset_and_hazards.md R240). On a state in which the command is already accepted, the checks and
the acceptance change nothing, because its operands cannot have changed (10_state.md R45; 20_memory.md R65). That a
command that was never accepted is checked here, and ends with the code of the check that fails, is the model's reading
(log entry 13). -/
def runCommand (i : Instr) (body : State → Host.Outcome State Fault Refusal) (s : State) :
    Host.Outcome State Fault Refusal :=
  match rejection i s with
  | some code => .next (raiseError code 0 s)
  | none => body (accept i s)

/-! ### Reset -/

/-- Whether ENC or DEC is running. -/
def State.bufferBusy (s : State) : Bool := s.runs Instr.isBuffer

/-- What reset leaves (70_reset_and_hazards.md R230, R231): every register at its reset value; if ENC or DEC was
running, every byte of its Dr is a draw; all other memory stays. -/
def afterReset (s : State) : State :=
  let t := if s.bufferBusy then s.drawDest else s
  { State.reset with mem := t.mem, platform := t.platform, inbox := t.inbox, draws := t.draws }

/-- The `rst` input (70_reset_and_hazards.md R230, R231). A run that uses memory with read side effects has no meaning
(R241; 20_memory.md R58), so the reset of an ENC or DEC over such memory is refused; `submit` lets none become BUSY (log
entry 18). -/
def resetEvent (s : State) : Host.Outcome State Fault Refusal :=
  if s.bufferBusy && s.coversSideEffects then .refused .sideEffectBuffer else .next (afterReset s)

end Sys2Proof.Machine
end

