-- ==== Sys2Proof/Machine/BlockCommands.lean ====
section
/-! DEFINITION. ENCB and DECB (41_block_transform.md R129-R136). -/

namespace Sys2Proof.Machine

/-- The execution and completion of a single-block command: (V0, V1) <- the transformed block
(41_block_transform.md R129, R133). -/
def transformV (dir : Direction) (ks : KeySource) (s : State) : State :=
  let b := transformBlock dir (s.subKeys ks) s.vBlock
  complete { s with v0 := b.v0, v1 := b.v1 }

/-- A single-block command (41_block_transform.md R129, R133). -/
def blockCommand (i : Instr) (dir : Direction) (ks : KeySource) (s : State) : Host.Outcome State Fault Refusal :=
  runCommand i (fun t => .next (transformV dir ks t)) s

/-- ENCB.RAW (41_block_transform.md R130). -/
def execEncbRaw (s : State) : Host.Outcome State Fault Refusal := blockCommand .encbRaw .encrypt .raw s

/-- ENCB.FLAT (41_block_transform.md R131). -/
def execEncbFlat (s : State) : Host.Outcome State Fault Refusal := blockCommand .encbFlat .encrypt .flat s

/-- ENCB.PAIRED (41_block_transform.md R132). -/
def execEncbPaired (s : State) : Host.Outcome State Fault Refusal := blockCommand .encbPaired .encrypt .paired s

/-- DECB.RAW (41_block_transform.md R134). -/
def execDecbRaw (s : State) : Host.Outcome State Fault Refusal := blockCommand .decbRaw .decrypt .raw s

/-- DECB.FLAT (41_block_transform.md R135). -/
def execDecbFlat (s : State) : Host.Outcome State Fault Refusal := blockCommand .decbFlat .decrypt .flat s

/-- DECB.PAIRED (41_block_transform.md R136). -/
def execDecbPaired (s : State) : Host.Outcome State Fault Refusal := blockCommand .decbPaired .decrypt .paired s

end Sys2Proof.Machine
end

