-- ==== Sys2Proof/Machine/Buffer.lean ====
section
/-! DEFINITION. ENC and DEC (42_loop_strategy.md R150-R174): the two loop orders, the refused blocks, the abort
(60_exceptions.md R206, R208) and the twelve commands. -/

namespace Sys2Proof.Machine

/-- BlockMajor(dir, SK) (42_loop_strategy.md R152). -/
def blockMajor (dir : Direction) (sk : Fin 32 → SubKeys) (src dst n : Nat) (m : Memory) : Memory :=
  (List.range n).foldl
    (fun m i => storeBlock m (dst + 8 * i) (transformBlock dir sk (loadBlock m (src + 8 * i)))) m

/-- One sweep of round-major order: one round over every block, from `base` to `dst` (42_loop_strategy.md R153). -/
def sweep (dir : Direction) (k : SubKeys) (base dst n : Nat) (m : Memory) : Memory :=
  (List.range n).foldl
    (fun m i => storeBlock m (dst + 8 * i) (roundStep dir (loadBlock m (base + 8 * i)) k)) m

/-- RoundMajor(dir, SK) (42_loop_strategy.md R153): the first sweep reads from `src`, the later ones from `dst`. The
flag beside the memory is `first`. -/
def roundMajor (dir : Direction) (sk : Fin 32 → SubKeys) (src dst n : Nat) (m : Memory) : Memory :=
  ((roundsOf dir).foldl
    (fun (p : Bool × Memory) r => (false, sweep dir (sk r) (if p.1 then src else dst) dst n p.2)) (true, m)).2

/-- The loop that ORDER selects (42_loop_strategy.md R157, R164). -/
def transformBuffer (order : LoopOrder) (dir : Direction) (sk : Fin 32 → SubKeys) (src dst n : Nat) (m : Memory) :
    Memory :=
  match order with
  | .blockMajor => blockMajor dir sk src dst n m
  | .roundMajor => roundMajor dir sk src dst n m

/-- The block addresses that a buffer command accesses in either order: those of S and of Dr (20_memory.md R57). -/
def State.blockAddresses (s : State) : List Nat :=
  (List.range s.blocks).map (s.src.toNat + 8 * ·) ++ (List.range s.blocks).map (s.dst.toNat + 8 * ·)

/-- Those of them that the memory refuses (20_memory.md R60; 60_exceptions.md R206). -/
def State.refusedBlocks (s : State) : List Nat := s.blockAddresses.filter s.platform.refusesBlock

/-- One of the refused blocks, which one being a draw if there are several (60_exceptions.md R206). -/
def pickBlock (blocks : List Nat) (draw : Nat) : Nat :=
  match blocks with
  | [] => 0
  | [a] => a
  | a :: rest => (a :: rest).getD (Config.freeIndex draw % (a :: rest).length) a

/-- The abort (60_exceptions.md R208): every byte of Dr is a draw, ERR <- 5, FADDR <- one refused block, BUSY <- 0,
DONE <- 1. -/
def abortBus (s : State) : State :=
  raiseError .bus (BitVec.ofNat 32 (pickBlock s.refusedBlocks s.draws)) { s with draws := s.draws + 1 }.drawDest

/-- The execution and completion of a buffer command without error (42_loop_strategy.md R157). -/
def transformMem (order : LoopOrder) (dir : Direction) (ks : KeySource) (s : State) : State :=
  complete { s with
    mem := transformBuffer order dir (s.subKeys ks) s.src.toNat s.dst.toNat s.blocks s.mem }

/-- The execution and end of an accepted buffer command (42_loop_strategy.md R157, R164; 20_memory.md R58). -/
def bufferBody (order : LoopOrder) (dir : Direction) (ks : KeySource) (s : State) :
    Host.Outcome State Fault Refusal :=
  if s.coversSideEffects then .refused .sideEffectBuffer
  else if s.refusedBlocks = [] then .next (transformMem order dir ks s)
  else .next (abortBus s)

/-- A buffer command (42_loop_strategy.md R157, R164). -/
def bufferCommand (i : Instr) (dir : Direction) (ks : KeySource) (order : LoopOrder) (s : State) :
    Host.Outcome State Fault Refusal :=
  runCommand i (bufferBody order dir ks) s

/-- ENC.RAW.BM (42_loop_strategy.md R158). -/
def execEncRawBm (s : State) : Host.Outcome State Fault Refusal := bufferCommand .encRawBm .encrypt .raw .blockMajor s

/-- ENC.FLAT.BM (42_loop_strategy.md R159). -/
def execEncFlatBm (s : State) : Host.Outcome State Fault Refusal :=
  bufferCommand .encFlatBm .encrypt .flat .blockMajor s

/-- ENC.PAIRED.BM (42_loop_strategy.md R160). -/
def execEncPairedBm (s : State) : Host.Outcome State Fault Refusal :=
  bufferCommand .encPairedBm .encrypt .paired .blockMajor s

/-- ENC.RAW.RM (42_loop_strategy.md R161). -/
def execEncRawRm (s : State) : Host.Outcome State Fault Refusal := bufferCommand .encRawRm .encrypt .raw .roundMajor s

/-- ENC.FLAT.RM (42_loop_strategy.md R162). -/
def execEncFlatRm (s : State) : Host.Outcome State Fault Refusal :=
  bufferCommand .encFlatRm .encrypt .flat .roundMajor s

/-- ENC.PAIRED.RM (42_loop_strategy.md R163). -/
def execEncPairedRm (s : State) : Host.Outcome State Fault Refusal :=
  bufferCommand .encPairedRm .encrypt .paired .roundMajor s

/-- DEC.RAW.BM (42_loop_strategy.md R165). -/
def execDecRawBm (s : State) : Host.Outcome State Fault Refusal := bufferCommand .decRawBm .decrypt .raw .blockMajor s

/-- DEC.FLAT.BM (42_loop_strategy.md R166). -/
def execDecFlatBm (s : State) : Host.Outcome State Fault Refusal :=
  bufferCommand .decFlatBm .decrypt .flat .blockMajor s

/-- DEC.PAIRED.BM (42_loop_strategy.md R167). -/
def execDecPairedBm (s : State) : Host.Outcome State Fault Refusal :=
  bufferCommand .decPairedBm .decrypt .paired .blockMajor s

/-- DEC.RAW.RM (42_loop_strategy.md R168). -/
def execDecRawRm (s : State) : Host.Outcome State Fault Refusal := bufferCommand .decRawRm .decrypt .raw .roundMajor s

/-- DEC.FLAT.RM (42_loop_strategy.md R169). -/
def execDecFlatRm (s : State) : Host.Outcome State Fault Refusal :=
  bufferCommand .decFlatRm .decrypt .flat .roundMajor s

/-- DEC.PAIRED.RM (42_loop_strategy.md R170). -/
def execDecPairedRm (s : State) : Host.Outcome State Fault Refusal :=
  bufferCommand .decPairedRm .decrypt .paired .roundMajor s

end Sys2Proof.Machine
end

