-- ==== Sys2Proof/Machine/Expand.lean ====
section
/-! DEFINITION. EXPF and EXPP (40_key_schedule.md R106, R107). -/

namespace Sys2Proof.Machine

/-- The execution and completion of EXPF: RKF <- FlatSchedule(KEY), FV <- 1 (40_key_schedule.md R106). -/
def expandFlat (s : State) : State :=
  complete { s with
    rkf := flatSchedule s.key
    rkfWritten := true
    status := { s.status with fv := true } }

/-- The execution and completion of EXPP: RKP <- PairedSchedule(KEY), PV <- 1 (40_key_schedule.md R107). -/
def expandPaired (s : State) : State :=
  complete { s with
    rkp := pairedSchedule s.key
    rkpWritten := true
    status := { s.status with pv := true } }

/-- EXPF (40_key_schedule.md R106). -/
def execExpf (s : State) : Host.Outcome State Fault Refusal := runCommand .expf (fun t => .next (expandFlat t)) s

/-- EXPP (40_key_schedule.md R107). -/
def execExpp (s : State) : Host.Outcome State Fault Refusal := runCommand .expp (fun t => .next (expandPaired t)) s

end Sys2Proof.Machine
end

