-- ==== Sys2Proof/Machine/Dispatch.lean ====
section
/-! DEFINITION. The dispatch of the 20 command words to their meanings: one arm per constructor of `Instr`, each one
direct call. -/

namespace Sys2Proof.Machine

/-- A command as one atomic step (10_state.md R42; 70_reset_and_hazards.md R240). -/
def exec (i : Instr) (s : State) : Host.Outcome State Fault Refusal :=
  match i with
  | .expf => Sys2Proof.Machine.execExpf s
  | .expp => Sys2Proof.Machine.execExpp s
  | .encbRaw => Sys2Proof.Machine.execEncbRaw s
  | .encbFlat => Sys2Proof.Machine.execEncbFlat s
  | .encbPaired => Sys2Proof.Machine.execEncbPaired s
  | .decbRaw => Sys2Proof.Machine.execDecbRaw s
  | .decbFlat => Sys2Proof.Machine.execDecbFlat s
  | .decbPaired => Sys2Proof.Machine.execDecbPaired s
  | .encRawBm => Sys2Proof.Machine.execEncRawBm s
  | .encFlatBm => Sys2Proof.Machine.execEncFlatBm s
  | .encPairedBm => Sys2Proof.Machine.execEncPairedBm s
  | .encRawRm => Sys2Proof.Machine.execEncRawRm s
  | .encFlatRm => Sys2Proof.Machine.execEncFlatRm s
  | .encPairedRm => Sys2Proof.Machine.execEncPairedRm s
  | .decRawBm => Sys2Proof.Machine.execDecRawBm s
  | .decFlatBm => Sys2Proof.Machine.execDecFlatBm s
  | .decPairedBm => Sys2Proof.Machine.execDecPairedBm s
  | .decRawRm => Sys2Proof.Machine.execDecRawRm s
  | .decFlatRm => Sys2Proof.Machine.execDecFlatRm s
  | .decPairedRm => Sys2Proof.Machine.execDecPairedRm s

end Sys2Proof.Machine
end

