-- ==== Sys2Proof/Machine/Port.lean ====
section
/-! DEFINITION. What the host does to the machine: register reads and writes through the port (10_state.md R22-R47;
30_encoding.md R70; 60_exceptions.md R210, R211) and accesses to memory (20_memory.md R58, R66). -/

namespace Sys2Proof.Machine

/-- A legal register read: the data is the register's value, or a draw (10_state.md R44). It changes no register. -/
def portRead (r : Reg) (s : State) : State :=
  match readReg r s with
  | some w => { s with response := .data w }
  | none => { s with response := .data (Config.freeWord s.draws), draws := s.draws + 1 }

/-- The effect of a write that is not dropped, per register (10_state.md R22): KEYj clears FV and PV (R34), STATUS is
write-1-to-clear (R25), INTEN holds bit 0 (R33), CMD submits a command (R39); the read-only and the reserved ignore
it (R23, R24, R38, R40, R41, R47). -/
def writeReg (r : Reg) (w : Word) (s : State) : Host.Outcome State Fault Refusal :=
  match r with
  | .status   => .next { s with status := writeStatus w s.status }
  | .inten    => .next { s with donie := w.getLsbD 0 }
  | .key j    =>
    .next { s with key := s.key.set j.val w, status := { s.status with fv := false, pv := false } }
  | .v0       => .next { s with v0 := w }
  | .v1       => .next { s with v1 := w }
  | .src      => .next { s with src := w }
  | .dst      => .next { s with dst := w }
  | .len      => .next { s with len := w }
  | .cmd      => submit w s
  | .id | .version | .faddr | .rkf _ | .rkpA _ | .rkpB _ | .reserved => .next s

/-- A legal register write: while BUSY a write to CMD or an operand is dropped and sets OVR, every other write has its
effect (10_state.md R30, R45; 60_exceptions.md R211). -/
def portWrite (r : Reg) (w : Word) (s : State) : Host.Outcome State Fault Refusal :=
  if r.isOperand && s.status.busy then
    .next { s with status := { s.status with ovr := true }, response := .written }
  else
    writeReg r w { s with response := .written }

/-- The host bus error: no engine state changes, and the data of a read is a draw (20_memory.md R55;
60_exceptions.md R210). -/
def busError (dir : AccessDir) (s : State) : State :=
  match dir with
  | .rd => { s with response := .busErrorRead (Config.freeWord s.draws), draws := s.draws + 1 }
  | .wr => { s with response := .busErrorWrite }

/-- A register transaction (30_encoding.md R70). -/
def registerAccess (t : Transaction) (s : State) : Host.Outcome State Fault Refusal :=
  if t.legal then
    match t.dir with
    | .rd => .next (portRead (regAt t.offset) s)
    | .wr => portWrite (regAt t.offset) t.wdata s
  else .next (busError t.dir s)

/-- Whether a host access to a byte of memory is a protocol violation: ENC or DEC is BUSY and the byte is one of
S or Dr (20_memory.md R66). -/
def State.races (s : State) (a : Nat) : Bool := s.bufferBusy && (s.inSource a || s.inDest a)

/-- The host reads a byte of memory (20_memory.md R62, R66). -/
def hostRead (addr : Word) (s : State) : Host.Outcome State Fault Refusal :=
  if s.races addr.toNat then .fault .race
  else if s.platform.hasSideEffects addr.toNat then .refused .sideEffectAccess
  else .next { s with response := .byte (s.mem.read addr.toNat) }

/-- The host writes a byte of memory (20_memory.md R61, R66). -/
def hostWrite (addr : Word) (b : Byte) (s : State) : Host.Outcome State Fault Refusal :=
  if s.races addr.toNat then .fault .race
  else if s.platform.hasSideEffects addr.toNat then .refused .sideEffectAccess
  else .next { s with mem := s.mem.write addr.toNat b, response := .byteWritten }

end Sys2Proof.Machine
end

