-- ==== Sys2Proof/Machine/Engine.lean ====
section
/-! DEFINITION. The ENGINE's step, which fetches and decodes the latched command word, and the delivery of one event
(10_state.md R20, R42; 70_reset_and_hazards.md R240). -/

namespace Sys2Proof.Machine

/-- The ENGINE's atomic step: a BUSY engine runs the latched command to its end, an idle one does nothing. A latched
word is always legal (only `accept` latches one); an illegal one would be reported as one is (60_exceptions.md R202). -/
def engineStep (s : State) : Host.Outcome State Fault Refusal :=
  if s.status.busy then
    match decode s.cmd with
    | .ok i => exec i s
    | .error _ => .next (raiseError .illegal 0 s)
  else .next s

/-- One event (10_state.md R20; 60_exceptions.md R224). -/
def deliver (e : Event) (s : State) : Host.Outcome State Fault Refusal :=
  match e with
  | .access t => registerAccess t s
  | .memRead a => hostRead a s
  | .memWrite a b => hostWrite a b s
  | .engine => engineStep s
  | .reset => resetEvent s

/-- The state in which the command word w is the accepted one and the ENGINE's step comes next: where the machine
fetches its next instruction (10_state.md R42; log entry 10). -/
def placeCommand (w : Word) (s : State) : State :=
  { s with status := { s.status with busy := true }, cmd := w, inbox := .engine :: s.inbox }

end Sys2Proof.Machine
end

