-- ==== Sys2Proof/Machine/Step.lean ====
section
/-! DEFINITION. The step: it takes the next event of the inbox; with an empty inbox a BUSY engine takes its step and
an idle machine waits (10_state.md R20; 70_reset_and_hazards.md R230, R240). -/

namespace Sys2Proof.Machine

/-- One step of the machine. -/
def step (s : State) : Host.Outcome State Fault Refusal :=
  match s.inbox with
  | [] => engineStep s
  | e :: rest => deliver e { s with inbox := rest }

/-- The state s with the command word w as the instruction that the next step fetches and runs (log entry 10). -/
def State.withFetchWord (s : State) (nbits w : Nat) : State := placeCommand (BitVec.ofNat 32 (w % 2 ^ nbits)) s

end Sys2Proof.Machine
end

