-- ==== Sys2Proof/Machine/HostProgram.lean ====
section
/-! DEFINITION. The written form of host programs: mnemonics (30_encoding.md R79), lines (R80) and the
pseudo-instructions with their expansions into events (R81). A host program is what stands in the inbox. -/

namespace Sys2Proof.Machine

/-- The canonical mnemonic (30_encoding.md R79, R82). -/
def mnemonic : Instr → String
  | .expf        => "EXPF"
  | .expp        => "EXPP"
  | .encbRaw     => "ENCB.RAW"
  | .encbFlat    => "ENCB.FLAT"
  | .encbPaired  => "ENCB.PAIRED"
  | .decbRaw     => "DECB.RAW"
  | .decbFlat    => "DECB.FLAT"
  | .decbPaired  => "DECB.PAIRED"
  | .encRawBm    => "ENC.RAW.BM"
  | .encFlatBm   => "ENC.FLAT.BM"
  | .encPairedBm => "ENC.PAIRED.BM"
  | .encRawRm    => "ENC.RAW.RM"
  | .encFlatRm   => "ENC.FLAT.RM"
  | .encPairedRm => "ENC.PAIRED.RM"
  | .decRawBm    => "DEC.RAW.BM"
  | .decFlatBm   => "DEC.FLAT.BM"
  | .decPairedBm => "DEC.PAIRED.BM"
  | .decRawRm    => "DEC.RAW.RM"
  | .decFlatRm   => "DEC.FLAT.RM"
  | .decPairedRm => "DEC.PAIRED.RM"

/-- The spellings a tool may accept beside the canonical one: an omitted qualifier is its zero value, RAW or BM
(30_encoding.md R79). -/
def shortSpellings : Instr → List String
  | .encbRaw     => ["ENCB"]
  | .decbRaw     => ["DECB"]
  | .encRawBm    => ["ENC", "ENC.RAW", "ENC.BM"]
  | .encFlatBm   => ["ENC.FLAT"]
  | .encPairedBm => ["ENC.PAIRED"]
  | .encRawRm    => ["ENC.RM"]
  | .decRawBm    => ["DEC", "DEC.RAW", "DEC.BM"]
  | .decFlatBm   => ["DEC.FLAT"]
  | .decPairedBm => ["DEC.PAIRED"]
  | .decRawRm    => ["DEC.RM"]
  | .expf | .expp | .encbFlat | .encbPaired | .decbFlat | .decbPaired | .encFlatRm | .encPairedRm | .decFlatRm
  | .decPairedRm => []

/-- The 20 commands in the order of 30_encoding.md R82. -/
def allInstrs : List Instr :=
  [.expf, .expp, .encbRaw, .encbFlat, .encbPaired, .decbRaw, .decbFlat, .decbPaired,
   .encRawBm, .encFlatBm, .encPairedBm, .encRawRm, .encFlatRm, .encPairedRm,
   .decRawBm, .decFlatBm, .decPairedBm, .decRawRm, .decFlatRm, .decPairedRm]

/-- Read a mnemonic, with omitted qualifiers allowed (30_encoding.md R79). -/
def parseMnemonic (text : String) : Option Instr :=
  allInstrs.find? fun i => mnemonic i == text || (shortSpellings i).contains text

/-- A line of a host program (30_encoding.md R80, R81). -/
inductive HostLine where
  /-- `WR <reg>, <value>`. -/
  | wr (r : Reg) (w : Word)
  /-- `RD <reg> -> <name>`: the value bound is the step's `response`. -/
  | rd (r : Reg)
  /-- `WR CMD, <mnemonic>`. -/
  | wrCmd (i : Instr)
  /-- `WAIT`. -/
  | wait
  /-- `RUN <mnemonic>`. -/
  | run (i : Instr)
  /-- `SETKEY k0, k1, k2, k3`. -/
  | setKey (k0 k1 k2 k3 : Word)
  /-- `SETBUF s, d, l`. -/
  | setBuf (s d l : Word)
  /-- `ACK`. -/
  | ack
  /-- `CHECK e`. -/
  | check (e : ErrCode)
deriving DecidableEq, Repr

/-- The event of a legal 32-bit write to a register. -/
def wrEvent (r : Reg) (w : Word) : Event := .access { dir := .wr, offset := r.offset, size := 4, wdata := w }

/-- The event of a legal 32-bit read of a register. -/
def rdEvent (r : Reg) : Event := .access { dir := .rd, offset := r.offset, size := 4, wdata := 0 }

/-- `WAIT`: it reads STATUS until BUSY = 0. The ENGINE's step falls somewhere within the loop; `polls` reads come
before it (LATENCY, 70_reset_and_hazards.md R240), and the read after it ends the loop (30_encoding.md R81). -/
def waitEvents (polls : Nat) : List Event := List.replicate polls (rdEvent .status) ++ [.engine, rdEvent .status]

/-- The events of a line (30_encoding.md R81); `polls` is the number of reads a WAIT makes while BUSY. -/
def HostLine.expand (polls : Nat) : HostLine → List Event
  | .wr r w => [wrEvent r w]
  | .rd r => [rdEvent r]
  | .wrCmd i => [wrEvent .cmd (encode i)]
  | .wait => waitEvents polls
  | .run i => wrEvent .cmd (encode i) :: waitEvents polls
  | .setKey k0 k1 k2 k3 => [wrEvent (.key 0) k0, wrEvent (.key 1) k1, wrEvent (.key 2) k2, wrEvent (.key 3) k3]
  | .setBuf s d l => [wrEvent .src s, wrEvent .dst d, wrEvent .len l]
  | .ack => [wrEvent .status 0x00000012]
  | .check _ => [rdEvent .status]

/-- What `CHECK e` asserts of the STATUS word it read: s[11:8] = e and s[1] = 1 (30_encoding.md R81). -/
def checkHolds (e : ErrCode) (status : Word) : Bool := status.extractLsb' 8 4 == e.bits && status.getLsbD 1

end Sys2Proof.Machine
end

