-- ==== Sys2Proof/Safety.lean ====
section
/-! DEFINITION. The terms in which claims speak: the conditions under which a command executes, written from the
spec's words and not from the checks of Machine/Ops.lean; the invariants of the machine; the end of a run. -/

namespace Sys2Proof.Safety

open Sys2Proof.Machine

/-! ### When a command executes -/

/-- The store that KSRC names is valid: FLAT needs FV and PAIRED needs PV (41_block_transform.md R127). -/
def ScheduleReady (ks : KeySource) (s : State) : Prop :=
  match ks with
  | .raw => True
  | .flat => s.status.fv = true
  | .paired => s.status.pv = true

/-- Neither range goes beyond 2^32 (60_exceptions.md R204), and SRC = DST or the ranges are disjoint (R205). With no
block there is nothing to fit (42_loop_strategy.md R171). -/
def BufferFits (s : State) : Prop :=
  s.blocks = 0 ∨
    (s.src.toNat + 8 * s.blocks ≤ 2 ^ 32 ∧ s.dst.toNat + 8 * s.blocks ≤ 2 ^ 32 ∧
      (s.src = s.dst ∨ s.src.toNat + 8 * s.blocks ≤ s.dst.toNat ∨ s.dst.toNat + 8 * s.blocks ≤ s.src.toNat))

/-- The address is one of S or Dr (42_loop_strategy.md R150). -/
def Touches (s : State) (a : Nat) : Prop :=
  (s.src.toNat ≤ a ∧ a < s.src.toNat + 8 * s.blocks) ∨ (s.dst.toNat ≤ a ∧ a < s.dst.toNat + 8 * s.blocks)

/-- No address is in a region of the list. -/
def NoneHolds (gs : List Region) (a : Nat) : Prop := ∀ g ∈ gs, ¬ (g.base ≤ a ∧ a < g.base + g.size)

/-- The memory admits every byte of S and Dr, so that no block access is refused (20_memory.md R60). -/
def MemoryAnswers (s : State) : Prop := ∀ a, Touches s a → NoneHolds s.platform.refused a

/-- The ranges cover ordinary memory only (20_memory.md R58). -/
def OrdinaryMemory (s : State) : Prop := ∀ a, Touches s a → NoneHolds s.platform.sideEffects a

/-- One of the block addresses the command's order would access is refused (60_exceptions.md R206). -/
def RefusedBlock (s : State) (a : Nat) : Prop :=
  (∃ i < s.blocks, a = s.src.toNat + 8 * i ∨ a = s.dst.toNat + 8 * i) ∧
    ∃ k < 8, ¬ NoneHolds s.platform.refused (a + k)

/-! ### Invariants -/

/-- The schedule validity invariant (10_state.md R48), without its restriction to BUSY = 0; and a valid store has been
written since reset, so that a read of it is its value (R40, R41). -/
def SchedulesValid (s : State) : Prop :=
  (s.status.fv = true → s.rkfWritten = true ∧ s.rkf = flatSchedule s.key) ∧
    (s.status.pv = true → s.rkpWritten = true ∧ s.rkp = pairedSchedule s.key)

/-- Memory is in its canonical form and lists only addresses of the memory space (20_memory.md R51). -/
def MemoryCanonical (s : State) : Prop := s.mem.wf = true ∧ s.mem.inSpace = true

/-- A BUSY engine runs a legal command that passed its checks, over ordinary memory if it is ENC or DEC (20_memory.md
R58), with DONE = 0, ERR = NONE and the flag of a running expansion 0; an idle one has discarded the command word
(10_state.md R26, R27, R28, R29, R31, R42, R45). -/
def RunningLegal (s : State) : Prop :=
  if s.status.busy then
    ∃ i, decode s.cmd = .ok i ∧ rejection i s = none ∧ (i.isBuffer = true → OrdinaryMemory s) ∧
      s.status.done = false ∧ s.status.err = .none ∧
      (i = .expf → s.status.fv = false) ∧ (i = .expp → s.status.pv = false)
  else s.cmd = 0

/-! ### The forms of the commands, and the schedule in plain arithmetic -/

/-- ENCB and DECB: the command, its direction and its key source (30_encoding.md R82). -/
def blockForms : List (Instr × Direction × KeySource) :=
  [(.encbRaw, .encrypt, .raw), (.encbFlat, .encrypt, .flat), (.encbPaired, .encrypt, .paired),
   (.decbRaw, .decrypt, .raw), (.decbFlat, .decrypt, .flat), (.decbPaired, .decrypt, .paired)]

/-- ENC and DEC: the command, its direction and its key source, in either order (30_encoding.md R82). -/
def bufferForms : List (Instr × Direction × KeySource) :=
  [(.encRawBm, .encrypt, .raw), (.encFlatBm, .encrypt, .flat), (.encPairedBm, .encrypt, .paired),
   (.encRawRm, .encrypt, .raw), (.encFlatRm, .encrypt, .flat), (.encPairedRm, .encrypt, .paired),
   (.decRawBm, .decrypt, .raw), (.decFlatBm, .decrypt, .flat), (.decPairedBm, .decrypt, .paired),
   (.decRawRm, .decrypt, .raw), (.decFlatRm, .decrypt, .flat), (.decPairedRm, .decrypt, .paired)]

/-- s_r = (r · DELTA) mod 2^32 (40_key_schedule.md R102). -/
def sumAt (r : Nat) : Word := BitVec.ofNat 32 (r * 0x9E3779B9)

/-- `key[sum & 3]` (40_key_schedule.md R101). -/
def evenPick (k : Key) (sum : Word) : Word := k[sum.toNat % 4]'(Nat.mod_lt _ (by decide))

/-- `key[(sum >> 11) & 3]` (40_key_schedule.md R101). -/
def oddPick (k : Key) (sum : Word) : Word := k[(sum >>> 11).toNat % 4]'(Nat.mod_lt _ (by decide))

/-- STATUS after a command that ended without error: BUSY = 0, DONE = 1, ERR = NONE (10_state.md R49). -/
def completed (st : Status) : Status := { st with busy := false, done := true, err := .none }

/-- STATUS after a command that ended with an error: BUSY = 0, DONE = 1, ERR = the code (60_exceptions.md R200). -/
def ended (code : ErrCode) (st : Status) : Status := { st with busy := false, done := true, err := code }

/-- The state after a CMD write that is rejected with a code (60_exceptions.md R207): DONE <- 1, ERR <- code, nothing
else; `rest` is what the inbox still holds. -/
def rejectedCmd (code : ErrCode) (rest : List Event) (s : State) : State :=
  { s with
    status := { s.status with done := true, err := code }
    inbox := rest
    response := .written }

/-- The event of a legal 32-bit register write at an offset (30_encoding.md R70). -/
def wr (offset : BitVec 12) (w : Word) : Event := .access { dir := .wr, offset := offset, size := 4, wdata := w }

/-- The event of a legal 32-bit register read at an offset (30_encoding.md R70). -/
def rd (offset : BitVec 12) : Event := .access { dir := .rd, offset := offset, size := 4, wdata := 0 }

/-! ### Runs -/

/-- The end of a run: the host has nothing left and the ENGINE is IDLE (70_reset_and_hazards.md R241). -/
def RunEnded (s : State) : Prop := s.inbox = [] ∧ s.status.busy = false

/-- Two states that differ at most in the model's own fields: the engine, the memory and the platform are equal. -/
def SameEngine (s t : State) : Prop :=
  t = { s with inbox := t.inbox, response := t.response, draws := t.draws }

end Sys2Proof.Safety
end

