-- ==== Sys2Proof/Certificates/Slice0/Obligations.lean ====
section
/-! DEFINITION. The statements for the provers, from the numbered rules of spec/. Each docstring names the rule it
formalises. A statement that speaks of a draw (`Config.freeWord`, `Config.freeByte`) holds for every value of it. -/

open Sys2Proof Sys2Proof.Machine Sys2Proof.Safety

/-! ### Encoding (30_encoding.md) -/

/-- 30_encoding.md R82, R83: the decoder reads every encoded command back, and reads a command only from its word. -/
def Obligations.DecodeEncodeAgree : Prop :=
  (∀ i : Instr, i.wellFormed = true → decode (encode i) = .ok i) ∧
    ∀ (w : Word) (i : Instr), decode w = .ok i → encode i = w

/-- 30_encoding.md R82: the words of the opcode map, and R83's worked examples of illegal words. -/
def Obligations.OpcodeMapWordsDecode : Prop :=
  (decode 0x00000001 = .ok .expf ∧ decode 0x00000002 = .ok .expp ∧
    decode 0x00000003 = .ok .encbRaw ∧ decode 0x00000013 = .ok .encbFlat ∧ decode 0x00000023 = .ok .encbPaired ∧
    decode 0x00000004 = .ok .decbRaw ∧ decode 0x00000014 = .ok .decbFlat ∧ decode 0x00000024 = .ok .decbPaired) ∧
  (decode 0x00000005 = .ok .encRawBm ∧ decode 0x00000015 = .ok .encFlatBm ∧ decode 0x00000025 = .ok .encPairedBm ∧
    decode 0x00000045 = .ok .encRawRm ∧ decode 0x00000055 = .ok .encFlatRm ∧ decode 0x00000065 = .ok .encPairedRm) ∧
  (decode 0x00000006 = .ok .decRawBm ∧ decode 0x00000016 = .ok .decFlatBm ∧ decode 0x00000026 = .ok .decPairedBm ∧
    decode 0x00000046 = .ok .decRawRm ∧ decode 0x00000056 = .ok .decFlatRm ∧ decode 0x00000066 = .ok .decPairedRm) ∧
  ∀ w ∈ ([0x00000033, 0x00000041, 0x00000085, 0x00000000] : List Word), ∀ i, decode w ≠ .ok i

/-- 30_encoding.md R76: a word decodes exactly when it is legal. -/
def Obligations.DecodesExactlyLegalWords : Prop :=
  ∀ w : Word, (∃ i, decode w = .ok i) ↔
    (w.extractLsb' 7 25 = 0 ∧
      (w.extractLsb' 0 4 = 1 ∨ w.extractLsb' 0 4 = 2 ∨ w.extractLsb' 0 4 = 3 ∨ w.extractLsb' 0 4 = 4 ∨
        w.extractLsb' 0 4 = 5 ∨ w.extractLsb' 0 4 = 6) ∧
      w.extractLsb' 4 2 ≠ 3 ∧
      (w.extractLsb' 0 4 = 1 ∨ w.extractLsb' 0 4 = 2 → w.extractLsb' 4 2 = 0 ∧ w.extractLsb' 6 1 = 0) ∧
      (w.extractLsb' 0 4 = 3 ∨ w.extractLsb' 0 4 = 4 → w.extractLsb' 6 1 = 0))

/-! ### A step runs the decoded command (10_state.md R42; 70_reset_and_hazards.md R240) -/

/-- The ENGINE's step of a BUSY machine is `exec` of the command that its latched word decodes to: when its event
comes, and when no event is left. -/
def Obligations.StepRunsTheLatchedCommand : Prop :=
  ∀ (s : State) (i : Instr), s.status.busy = true → decode s.cmd = .ok i →
    (s.inbox = [] → step s = exec i s) ∧
      ∀ rest, s.inbox = .engine :: rest → step s = exec i { s with inbox := rest }

/-- A step after `withFetchWord` is `exec` of the command whose word was placed, on the BUSY state that holds it. -/
def Obligations.StepRunsThePlacedWord : Prop :=
  ∀ (s : State) (i : Instr),
    step (s.withFetchWord 32 (encode i).toNat) =
      exec i { s with status := { s.status with busy := true }, cmd := encode i }

/-- 70_reset_and_hazards.md R240, 20_memory.md R65: to run a command at once, or to accept it and run the accepted
command later, is the same. That `exec` of a command makes its checks and its acceptance is the model's reading (log
entry 13). -/
def Obligations.AcceptThenRunIsTheWholeCommand : Prop :=
  ∀ (s : State) (i : Instr), rejection i s = none → exec i (accept i s) = exec i s

/-- 30_encoding.md R81: `RUN` of a command that an idle engine accepts and completes, with any number of polls, ends
with the command's result and the STATUS word read, BUSY = 0. R81 says that WAIT reads STATUS until BUSY = 0; that its
events are a number of polls, the ENGINE's event and one last read is the model's expansion of it (log entries 16 and
1). -/
def Obligations.RunLineCompletesTheCommand : Prop :=
  ∀ (s t : State) (i : Instr) (polls : Nat),
    s.status.busy = false → rejection i s = none → exec i s = .next t →
    s.inbox = HostLine.expand polls (.run i) →
    ∃ u, Sys2Proof.core.run (polls + 3) s = .next u ∧
      u = { t with inbox := [], response := .data (statusWord t.status) } ∧ u.status.busy = false

/-! ### The CMD write (60_exceptions.md R209; 10_state.md R49) -/

/-- 60_exceptions.md R209, R207 and 10_state.md R49: a CMD write with BUSY = 0 is rejected with the first code that
applies, with no other effect, or accepted; one with BUSY = 1 is not checked at all but dropped. That a word is legal is
that it decodes (`DecodesExactlyLegalWords`). An ENC or DEC that passes the checks over memory with read side effects is
given no meaning but refused (20_memory.md R58); that the refusal falls at the CMD write, after the checks, is the
model's choice (log entry 12). -/
def Obligations.CmdWriteIsCheckedInOrder : Prop :=
  (∀ (s : State) (w : Word) (rest : List Event), s.status.busy = true → s.inbox = wr 0x040 w :: rest →
    step s = .next { s with inbox := rest, response := .written, status := { s.status with ovr := true } }) ∧
  ∀ (s : State) (w : Word) (rest : List Event), s.status.busy = false → s.inbox = wr 0x040 w :: rest →
    (∀ e, decode w = .error e → step s = .next (rejectedCmd .illegal rest s)) ∧
    ∀ i, decode w = .ok i →
      (¬ ScheduleReady i.keySource s → step s = .next (rejectedCmd .noSched rest s)) ∧
      (ScheduleReady i.keySource s → i.isBuffer = true → 0 < s.blocks →
        2 ^ 32 < s.src.toNat + 8 * s.blocks ∨ 2 ^ 32 < s.dst.toNat + 8 * s.blocks →
        step s = .next (rejectedCmd .range rest s)) ∧
      (ScheduleReady i.keySource s → i.isBuffer = true → 0 < s.blocks →
        s.src.toNat + 8 * s.blocks ≤ 2 ^ 32 → s.dst.toNat + 8 * s.blocks ≤ 2 ^ 32 →
        s.src ≠ s.dst → s.src.toNat < s.dst.toNat + 8 * s.blocks → s.dst.toNat < s.src.toNat + 8 * s.blocks →
        step s = .next (rejectedCmd .overlap rest s)) ∧
      (ScheduleReady i.keySource s → i.isBuffer = true → BufferFits s → ¬ OrdinaryMemory s →
        step s = .refused .sideEffectBuffer) ∧
      (ScheduleReady i.keySource s → (i.isBuffer = true → BufferFits s ∧ OrdinaryMemory s) →
        step s = .next { s with
          inbox := rest
          response := .written
          cmd := w
          status := { s.status with
            busy := true
            done := false
            err := .none
            fv := if i = .expf then false else s.status.fv
            pv := if i = .expp then false else s.status.pv } })

/-- 60_exceptions.md R203-R205, R209: the same checks where the whole command is one step: each failing one ends it with
its code, and no register of the map but STATUS changes, nor memory. The spec makes the checks at the CMD write. That
`exec` makes them (again), so that even a BUSY command whose checks fail, which no CMD write leads to, ends with NOSCHED,
RANGE or OVERLAP, is the model's reading (log entry 13); that the hidden command word is then 0 is the model's choice
(log entry 4). -/
def Obligations.CommandStopsOnAFailedCheck : Prop :=
  (∀ f ∈ blockForms ++ bufferForms, ∀ s : State, ¬ ScheduleReady f.2.2 s →
    exec f.1 s = .next { s with status := ended .noSched s.status, cmd := 0 }) ∧
  (∀ f ∈ bufferForms, ∀ s : State, ScheduleReady f.2.2 s → 0 < s.blocks →
    2 ^ 32 < s.src.toNat + 8 * s.blocks ∨ 2 ^ 32 < s.dst.toNat + 8 * s.blocks →
    exec f.1 s = .next { s with status := ended .range s.status, cmd := 0 }) ∧
  (∀ f ∈ bufferForms, ∀ s : State, ScheduleReady f.2.2 s → 0 < s.blocks →
    s.src.toNat + 8 * s.blocks ≤ 2 ^ 32 → s.dst.toNat + 8 * s.blocks ≤ 2 ^ 32 →
    s.src ≠ s.dst → s.src.toNat < s.dst.toNat + 8 * s.blocks → s.dst.toNat < s.src.toNat + 8 * s.blocks →
    exec f.1 s = .next { s with status := ended .overlap s.status, cmd := 0 })

/-! ### The key schedule and EXPF, EXPP (40_key_schedule.md) -/

/-- 40_key_schedule.md R102: the closed form of FlatSchedule, and the last of the sums. -/
def Obligations.FlatScheduleClosedForm : Prop :=
  (∀ (k : Key) (r : Fin 32),
    (flatSchedule k)[2 * r.val] = sumAt r.val + evenPick k (sumAt r.val) ∧
      (flatSchedule k)[2 * r.val + 1] = sumAt (r.val + 1) + oddPick k (sumAt (r.val + 1))) ∧
    sumAt 32 = 0xC6EF3720

/-- 40_key_schedule.md R105: b_r and a_{r+1} use the same sum; they are equal whenever the two key words they add are,
so for every r in 0..30 if the four key words are equal. -/
def Obligations.AdjacentSubKeysShareTheSum : Prop :=
  ∀ k : Key,
    (∀ r : Fin 31,
      (flatSchedule k)[2 * r.val + 1] = sumAt (r.val + 1) + oddPick k (sumAt (r.val + 1)) ∧
        (flatSchedule k)[2 * (r.val + 1)] = sumAt (r.val + 1) + evenPick k (sumAt (r.val + 1))) ∧
    (∀ r : Fin 31, oddPick k (sumAt (r.val + 1)) = evenPick k (sumAt (r.val + 1)) →
      (flatSchedule k)[2 * r.val + 1] = (flatSchedule k)[2 * (r.val + 1)]) ∧
    ((∀ j : Fin 4, k[j.val] = k[0]) →
      ∀ r : Fin 31, (flatSchedule k)[2 * r.val + 1] = (flatSchedule k)[2 * (r.val + 1)])

/-- 41_block_transform.md R137: the fused generation, up from 0 to encrypt and down from 0xC6EF3720 to decrypt, yields
SK_RAW in the order of the rounds. -/
def Obligations.FusedSumYieldsTheRawSubKeys : Prop :=
  ∀ s : State,
    fusedUp s.key 32 0 = (roundsOf .encrypt).map (s.subKeys .raw) ∧
      fusedDown s.key 32 0xC6EF3720 = (roundsOf .decrypt).map (s.subKeys .raw)

/-- 40_key_schedule.md R106 with R101, R102: EXPF completes in every state, fills RKF with the expansion of KEY, sets
FV, and changes no other register of the map but STATUS, nor memory. The spec says that the hidden command word is
discarded (10_state.md R42); that it is then 0 is the model's choice (log entry 4). -/
def Obligations.ExpfCompletes : Prop :=
  ∀ s : State, ∃ t, exec .expf s = .next t ∧
    t = { s with
      rkf := t.rkf
      rkfWritten := true
      status := { completed s.status with fv := true }
      cmd := 0 } ∧
    ∀ r : Fin 32,
      t.rkf[2 * r.val] = sumAt r.val + evenPick s.key (sumAt r.val) ∧
        t.rkf[2 * r.val + 1] = sumAt (r.val + 1) + oddPick s.key (sumAt (r.val + 1))

/-- 40_key_schedule.md R107 with R103: EXPP completes in every state, fills RKP with the expansion of KEY, sets PV, and
changes no other register of the map but STATUS, nor memory. The spec says that the hidden command word is discarded
(10_state.md R42); that it is then 0 is the model's choice (log entry 4). -/
def Obligations.ExppCompletes : Prop :=
  ∀ s : State, ∃ t, exec .expp s = .next t ∧
    t = { s with
      rkp := t.rkp
      rkpWritten := true
      status := { completed s.status with pv := true }
      cmd := 0 } ∧
    ∀ r : Fin 32,
      t.rkp[r.val].a = sumAt r.val + evenPick s.key (sumAt r.val) ∧
        t.rkp[r.val].b = sumAt (r.val + 1) + oddPick s.key (sumAt (r.val + 1))

/-! ### The block transform and ENCB, DECB (41_block_transform.md) -/

/-- 41_block_transform.md R120: F in plain arithmetic, and its corner values. -/
def Obligations.MixingFunctionValues : Prop :=
  (∀ v : Word, (mixF v).toNat = (((v.toNat * 16 % 2 ^ 32) ^^^ (v.toNat / 32)) + v.toNat) % 2 ^ 32) ∧
    mixF 0 = 0 ∧ mixF 1 = 0x00000011 ∧ mixF 0x80000000 = 0x84000000 ∧ mixF 0xFFFFFFFF = 0xF800000E

/-- 41_block_transform.md R121, R122, R123: what each round computes (the XOR with the sub-key applies to the mixed
value, and the second half-update reads the word just written), and that the two rounds are inverse to each other. -/
def Obligations.RoundsAreInverse : Prop :=
  ∀ (b : Block) (k : SubKeys),
    ((encRound b k).v0 = b.v0 + (mixF b.v1 ^^^ k.a) ∧
      (encRound b k).v1 = b.v1 + (mixF (encRound b k).v0 ^^^ k.b)) ∧
    ((decRound b k).v1 = b.v1 - (mixF b.v0 ^^^ k.b) ∧
      (decRound b k).v0 = b.v0 - (mixF (decRound b k).v1 ^^^ k.a)) ∧
    decRound (encRound b k) k = b ∧ encRound (decRound b k) k = b

/-- 41_block_transform.md R124, R125: EncryptBlock is EncRound of rounds 0 to 31 in turn, and DecryptBlock is DecRound
of rounds 31 down to 0: any chain of blocks linked by the rounds has them at its ends. -/
def Obligations.BlockTransformIsThirtyTwoRounds : Prop :=
  ∀ (sk : Fin 32 → SubKeys) (chain : Nat → Block),
    ((∀ r : Fin 32, chain (r.val + 1) = encRound (chain r.val) (sk r)) → encryptBlock sk (chain 0) = chain 32) ∧
      ((∀ r : Fin 32, chain r.val = decRound (chain (r.val + 1)) (sk r)) → decryptBlock sk (chain 32) = chain 0)

/-- 41_block_transform.md R126: for every SK, DecryptBlock and EncryptBlock are inverse to each other. -/
def Obligations.BlockTransformsAreInverse : Prop :=
  ∀ (sk : Fin 32 → SubKeys) (b : Block),
    decryptBlock sk (encryptBlock sk b) = b ∧ encryptBlock sk (decryptBlock sk b) = b

/-- 41_block_transform.md R129-R136: each ENCB and DECB whose schedule is valid completes: (V0, V1) become the
transformed block under SK_KSRC, and nothing else changes but STATUS and the hidden command word. The spec says that the
hidden word is discarded (10_state.md R42); that it is then 0 is the model's choice (log entry 4). -/
def Obligations.BlockCommandsComplete : Prop :=
  ∀ f ∈ blockForms, ∀ s : State, ScheduleReady f.2.2 s →
    exec f.1 s = .next { s with
      v0 := (transformBlock f.2.1 (s.subKeys f.2.2) { v0 := s.v0, v1 := s.v1 }).v0
      v1 := (transformBlock f.2.1 (s.subKeys f.2.2) { v0 := s.v0, v1 := s.v1 }).v1
      status := completed s.status
      cmd := 0 }

/-- 41_block_transform.md R127: what SK_RAW, SK_FLAT and SK_PAIRED are. -/
def Obligations.SubKeysByKeySource : Prop :=
  ∀ (s : State) (r : Fin 32),
    s.subKeys .raw r =
        { a := sumAt r.val + evenPick s.key (sumAt r.val)
          b := sumAt (r.val + 1) + oddPick s.key (sumAt (r.val + 1)) } ∧
      s.subKeys .flat r = { a := s.rkf[2 * r.val], b := s.rkf[2 * r.val + 1] } ∧
      s.subKeys .paired r = s.rkp[r.val]

/-- 41_block_transform.md R128: with valid schedules SK_FLAT and SK_PAIRED are SK_RAW, and the FLAT and PAIRED forms of
every command give what its RAW form gives. The outcomes here are all those of `exec`: that after a BUS abort the drawn
bytes of Dr and FADDR are the same as well is the model's, whose draws are numbered by a counter (log entry 8), and so is
that `exec` makes the checks (log entry 13). -/
def Obligations.KeyMaterialFormsAgree : Prop :=
  ∀ s : State, SchedulesValid s →
    (s.status.fv = true → s.subKeys .flat = s.subKeys .raw) ∧
    (s.status.pv = true → s.subKeys .paired = s.subKeys .raw) ∧
    ∀ f ∈ ([(.encbRaw, .encbFlat, .encbPaired), (.decbRaw, .decbFlat, .decbPaired),
        (.encRawBm, .encFlatBm, .encPairedBm), (.encRawRm, .encFlatRm, .encPairedRm),
        (.decRawBm, .decFlatBm, .decPairedBm), (.decRawRm, .decFlatRm, .decPairedRm)] : List (Instr × Instr × Instr)),
      (s.status.fv = true → exec f.2.1 s = exec f.1 s) ∧ (s.status.pv = true → exec f.2.2 s = exec f.1 s)

/-- 41_block_transform.md R133: ENCB followed by DECB, of any two forms whose schedules are valid, restores V0 and V1. -/
def Obligations.BlockCommandsRoundTrip : Prop :=
  ∀ e ∈ blockForms, e.2.1 = .encrypt → ∀ d ∈ blockForms, d.2.1 = .decrypt →
    ∀ s : State, SchedulesValid s → ScheduleReady e.2.2 s → ScheduleReady d.2.2 s →
      ∃ t u, exec e.1 s = .next t ∧ exec d.1 t = .next u ∧ u.v0 = s.v0 ∧ u.v1 = s.v1

/-! ### Buffers and ENC, DEC (42_loop_strategy.md) -/

/-- 20_memory.md R52: a block is loaded little-endian from its eight bytes, v0 from the first four; it is stored so; no
other byte changes; and it loads back. -/
def Obligations.BlocksLieLittleEndian : Prop :=
  ∀ (m : Memory) (a : Nat) (b : Block), m.wf = true →
    loadBlock m a =
      { v0 := m.read (a + 3) ++ m.read (a + 2) ++ m.read (a + 1) ++ m.read a
        v1 := m.read (a + 7) ++ m.read (a + 6) ++ m.read (a + 5) ++ m.read (a + 4) } ∧
    (∀ k < 4, (storeBlock m a b).read (a + k) = b.v0.extractLsb' (8 * k) 8 ∧
      (storeBlock m a b).read (a + 4 + k) = b.v1.extractLsb' (8 * k) 8) ∧
    (∀ c, c < a ∨ a + 8 ≤ c → (storeBlock m a b).read c = m.read c) ∧
    loadBlock (storeBlock m a b) a = b

/-- 42_loop_strategy.md R152-R157, R164: each ENC and DEC, in either order, that passes its checks over ordinary memory
that refuses no access completes: each block of Dr is the transform of the block of S, every byte outside Dr is as it
was, and nothing else changes but STATUS and the hidden command word. The spec says that the hidden word is discarded
(10_state.md R42); that it is then 0 is the model's choice (log entry 4). -/
def Obligations.BufferCommandsComplete : Prop :=
  ∀ f ∈ bufferForms, ∀ s : State, s.mem.wf = true →
    ScheduleReady f.2.2 s → BufferFits s → OrdinaryMemory s → MemoryAnswers s →
    ∃ t, exec f.1 s = .next t ∧
      t = { s with mem := t.mem, status := completed s.status, cmd := 0 } ∧
      (∀ i < s.blocks, loadBlock t.mem (s.dst.toNat + 8 * i) =
        transformBlock f.2.1 (s.subKeys f.2.2) (loadBlock s.mem (s.src.toNat + 8 * i))) ∧
      ∀ c, c < s.dst.toNat ∨ s.dst.toNat + 8 * s.blocks ≤ c → t.mem.read c = s.mem.read c

/-- 42_loop_strategy.md R171: with LEN < 8 an ENC or DEC whose schedule is valid completes whatever SRC, DST and the
platform are, and memory is unchanged; NOSCHED is still checked. The spec checks it at the CMD write; that `exec` checks
it, so that even a BUSY command without a valid schedule ends with NOSCHED, is the model's reading (log entry 13), and
that the hidden command word is 0 afterwards is the model's choice (log entry 4). -/
def Obligations.ZeroBlocksCompleteUntouched : Prop :=
  ∀ f ∈ bufferForms, ∀ s : State, s.len.toNat < 8 →
    (ScheduleReady f.2.2 s → exec f.1 s = .next { s with status := completed s.status, cmd := 0 }) ∧
      (¬ ScheduleReady f.2.2 s → exec f.1 s = .next { s with status := ended .noSched s.status, cmd := 0 })

/-- Round-major and block-major order give the same outcome, on every canonical memory. The spec says so of the memory
that a command leaves which ends without a BUS error (42_loop_strategy.md R154), and makes the checks and the refusal
before any order matters (60_exceptions.md R203-R205, R209; 20_memory.md R58). That after an abort the drawn bytes of Dr
and FADDR are the same as well is the model's: its draws are numbered by a counter and not by the order of the accesses
(log entry 8). -/
def Obligations.LoopOrdersAgree : Prop :=
  ∀ s : State, s.mem.wf = true →
    ∀ f ∈ ([(.encRawBm, .encRawRm), (.encFlatBm, .encFlatRm), (.encPairedBm, .encPairedRm),
        (.decRawBm, .decRawRm), (.decFlatBm, .decFlatRm), (.decPairedBm, .decPairedRm)] : List (Instr × Instr)),
      exec f.2 s = exec f.1 s

/-- 42_loop_strategy.md R174: in place, any ENC followed by any DEC, each with a valid schedule, restores memory. -/
def Obligations.BufferCommandsRoundTrip : Prop :=
  ∀ e ∈ bufferForms, e.2.1 = .encrypt → ∀ d ∈ bufferForms, d.2.1 = .decrypt →
    ∀ s : State, s.mem.wf = true → SchedulesValid s → ScheduleReady e.2.2 s → ScheduleReady d.2.2 s →
      s.src = s.dst → BufferFits s → OrdinaryMemory s → MemoryAnswers s →
      ∃ t u, exec e.1 s = .next t ∧ exec d.1 t = .next u ∧ u.mem = s.mem

/-- 42_loop_strategy.md R173: equal input blocks of one buffer give equal output blocks. -/
def Obligations.EqualBlocksGiveEqualBlocks : Prop :=
  ∀ f ∈ bufferForms, ∀ s t : State, s.mem.wf = true → exec f.1 s = .next t → t.status.err = .none →
    ∀ i < s.blocks, ∀ j < s.blocks,
      loadBlock s.mem (s.src.toNat + 8 * i) = loadBlock s.mem (s.src.toNat + 8 * j) →
      loadBlock t.mem (s.dst.toNat + 8 * i) = loadBlock t.mem (s.dst.toNat + 8 * j)

/-- 60_exceptions.md R206, R208: a buffer command that passed its checks and would access a refused block aborts: ERR =
BUS, FADDR names a refused block, every byte of Dr is a draw, every other byte and every other register is as it was.
The spec says that the hidden command word is discarded (10_state.md R42); that it is then 0 is the model's choice (log
entry 4). -/
def Obligations.RefusedBlockAborts : Prop :=
  ∀ f ∈ bufferForms, ∀ s : State, s.mem.wf = true →
    ScheduleReady f.2.2 s → BufferFits s → OrdinaryMemory s → (∃ a, RefusedBlock s a) →
    ∃ t a first, exec f.1 s = .next t ∧ RefusedBlock s a ∧
      t = { s with
        mem := t.mem
        faddr := BitVec.ofNat 32 a
        status := ended .bus s.status
        cmd := 0
        draws := t.draws } ∧
      (∀ j < 8 * s.blocks, t.mem.read (s.dst.toNat + j) = Config.freeByte (first + j)) ∧
      ∀ c, c < s.dst.toNat ∨ s.dst.toNat + 8 * s.blocks ≤ c → t.mem.read c = s.mem.read c

/-- 20_memory.md R58, 70_reset_and_hazards.md R241: a buffer command that passes its checks and covers a location with
read side effects is given no meaning: its CMD write is refused, and so is the command where it was placed without one,
and the reset of an engine that is BUSY with it. Where in the run the refusal falls is the model's choice (log entries 12
and 18). -/
def Obligations.SideEffectMemoryIsRefused : Prop :=
  ∀ f ∈ bufferForms, ∀ s : State, (∃ a, Touches s a ∧ ¬ NoneHolds s.platform.sideEffects a) →
    (ScheduleReady f.2.2 s → BufferFits s →
      exec f.1 s = .refused .sideEffectBuffer ∧
        ∀ rest, s.status.busy = false → s.inbox = wr 0x040 (encode f.1) :: rest →
          step s = .refused .sideEffectBuffer) ∧
    ∀ rest, s.status.busy = true → decode s.cmd = .ok f.1 → s.inbox = .reset :: rest →
      step s = .refused .sideEffectBuffer

/-! ### Frames (92_eei_decisions.md D39) -/

/-- No command writes KEY, SRC, DST, LEN, INTEN or OVR; none touches the platform or the model's inbox and response. -/
def Obligations.CommandsKeepOperands : Prop :=
  ∀ (i : Instr) (s t : State), exec i s = .next t →
    t.key = s.key ∧ t.src = s.src ∧ t.dst = s.dst ∧ t.len = s.len ∧ t.donie = s.donie ∧
      t.status.ovr = s.status.ovr ∧ t.platform = s.platform ∧ t.inbox = s.inbox ∧ t.response = s.response

/-- 40_key_schedule.md R106, R107: EXPF writes only RKF and FV, EXPP only RKP and PV, beside BUSY, DONE and ERR; no
byte of memory changes. -/
def Obligations.ExpandFrame : Prop :=
  (∀ s t : State, exec .expf s = .next t →
    t = { s with rkf := t.rkf, rkfWritten := t.rkfWritten, status := t.status, cmd := t.cmd } ∧
      t.status.pv = s.status.pv ∧ t.status.ovr = s.status.ovr ∧ ∀ a, t.mem.read a = s.mem.read a) ∧
  (∀ s t : State, exec .expp s = .next t →
    t = { s with rkp := t.rkp, rkpWritten := t.rkpWritten, status := t.status, cmd := t.cmd } ∧
      t.status.fv = s.status.fv ∧ t.status.ovr = s.status.ovr ∧ ∀ a, t.mem.read a = s.mem.read a)

/-- 41_block_transform.md R129, R133: ENCB and DECB write only V0 and V1, beside BUSY, DONE and ERR; no byte of memory
changes. -/
def Obligations.BlockCommandFrame : Prop :=
  ∀ f ∈ blockForms, ∀ s t : State, exec f.1 s = .next t →
    t = { s with v0 := t.v0, v1 := t.v1, status := t.status, cmd := t.cmd } ∧
      t.status.fv = s.status.fv ∧ t.status.pv = s.status.pv ∧ t.status.ovr = s.status.ovr ∧
      ∀ a, t.mem.read a = s.mem.read a

/-- 42_loop_strategy.md R157, R164; 20_memory.md R57: ENC and DEC write only memory in [DST, DST + 8n), beside BUSY,
DONE and ERR, and FADDR when they end with BUS; every byte outside is unchanged. -/
def Obligations.BufferCommandFrame : Prop :=
  ∀ f ∈ bufferForms, ∀ s t : State, s.mem.wf = true → exec f.1 s = .next t →
    t = { s with mem := t.mem, faddr := t.faddr, status := t.status, cmd := t.cmd, draws := t.draws } ∧
      t.status.fv = s.status.fv ∧ t.status.pv = s.status.pv ∧ t.status.ovr = s.status.ovr ∧
      (t.status.err ≠ .bus → t.faddr = s.faddr ∧ t.draws = s.draws) ∧
      ∀ c, c < s.dst.toNat ∨ s.dst.toNat + 8 * s.blocks ≤ c → t.mem.read c = s.mem.read c

/-! ### The register port (10_state.md) -/

/-- 10_state.md R23, R24: ID and VERSION always read their constants, and writes to them are ignored and set no flag. -/
def Obligations.IdAndVersionAreConstant : Prop :=
  ∀ (s : State) (rest : List Event),
    (s.inbox = rd 0x000 :: rest → step s = .next { s with inbox := rest, response := .data 0x58544541 }) ∧
    (s.inbox = rd 0x004 :: rest → step s = .next { s with inbox := rest, response := .data 0x00000001 }) ∧
    ∀ w, (s.inbox = wr 0x000 w :: rest → step s = .next { s with inbox := rest, response := .written }) ∧
      (s.inbox = wr 0x004 w :: rest → step s = .next { s with inbox := rest, response := .written })

/-- 10_state.md R25, R32 and 60_exceptions.md R201: the layout of the STATUS word, in every state, and the numbers of
the outcome codes. -/
def Obligations.StatusWordLayout : Prop :=
  (ErrCode.none.bits = 0 ∧ ErrCode.illegal.bits = 1 ∧ ErrCode.noSched.bits = 2 ∧ ErrCode.range.bits = 3 ∧
    ErrCode.overlap.bits = 4 ∧ ErrCode.bus.bits = 5) ∧
  ∀ st : Status,
    (statusWord st).getLsbD 0 = st.busy ∧ (statusWord st).getLsbD 1 = st.done ∧
    (statusWord st).getLsbD 2 = st.fv ∧ (statusWord st).getLsbD 3 = st.pv ∧ (statusWord st).getLsbD 4 = st.ovr ∧
    (statusWord st).extractLsb' 8 4 = st.err.bits ∧
    (statusWord st).extractLsb' 5 3 = 0 ∧ (statusWord st).extractLsb' 12 20 = 0

/-- 10_state.md R25: a STATUS write takes effect even while BUSY: bit 1 clears DONE, bit 4 clears OVR, every other bit
is ignored; ERR stays (60_exceptions.md R213). -/
def Obligations.StatusWriteClearsDoneAndOvr : Prop :=
  ∀ (s : State) (w : Word) (rest : List Event), s.inbox = wr 0x008 w :: rest →
    step s = .next { s with
      inbox := rest
      response := .written
      status := { s.status with
        done := if w.getLsbD 1 then false else s.status.done
        ovr := if w.getLsbD 4 then false else s.status.ovr } }

/-- 10_state.md R33: a write to INTEN takes effect even while BUSY, DONEIE <- wdata[0]; a read gives DONEIE in bit 0
and 0 in bits 31:1. -/
def Obligations.IntenHoldsDoneie : Prop :=
  ∀ (s : State) (rest : List Event),
    (∀ w, s.inbox = wr 0x00C w :: rest →
      step s = .next { s with inbox := rest, response := .written, donie := w.getLsbD 0 }) ∧
    (s.inbox = rd 0x00C :: rest →
      step s = .next { s with inbox := rest, response := .data (if s.donie then 1 else 0) })

/-- 10_state.md R34: an accepted write to KEYj stores the word and clears FV and PV; a read gives KEYj at all times. -/
def Obligations.KeyWriteClearsSchedules : Prop :=
  ∀ (s : State) (j : Fin 4) (rest : List Event),
    (∀ w, s.status.busy = false → s.inbox = wr (BitVec.ofNat 12 (0x010 + 4 * j.val)) w :: rest →
      step s = .next { s with
        inbox := rest
        response := .written
        key := s.key.set j.val w
        status := { s.status with fv := false, pv := false } }) ∧
    (s.inbox = rd (BitVec.ofNat 12 (0x010 + 4 * j.val)) :: rest →
      step s = .next { s with inbox := rest, response := .data s.key[j.val] })

/-- 10_state.md R35-R37: an accepted write to V0, V1, SRC, DST or LEN stores the word and changes nothing else.
R22, R25, R35-R39: while BUSY = 0 a read of STATUS, V0, V1, SRC, DST, LEN or FADDR gives what the register holds, and
one of CMD gives 0; a read changes nothing. -/
def Obligations.OperandWritesStore : Prop :=
  (∀ (s : State) (w : Word) (rest : List Event), s.status.busy = false →
    (s.inbox = wr 0x020 w :: rest → step s = .next { s with inbox := rest, response := .written, v0 := w }) ∧
    (s.inbox = wr 0x024 w :: rest → step s = .next { s with inbox := rest, response := .written, v1 := w }) ∧
    (s.inbox = wr 0x030 w :: rest → step s = .next { s with inbox := rest, response := .written, src := w }) ∧
    (s.inbox = wr 0x034 w :: rest → step s = .next { s with inbox := rest, response := .written, dst := w }) ∧
    (s.inbox = wr 0x038 w :: rest → step s = .next { s with inbox := rest, response := .written, len := w })) ∧
  ∀ (s : State) (rest : List Event), s.status.busy = false →
    (s.inbox = rd 0x008 :: rest →
      step s = .next { s with inbox := rest, response := .data (statusWord s.status) }) ∧
    (s.inbox = rd 0x020 :: rest → step s = .next { s with inbox := rest, response := .data s.v0 }) ∧
    (s.inbox = rd 0x024 :: rest → step s = .next { s with inbox := rest, response := .data s.v1 }) ∧
    (s.inbox = rd 0x030 :: rest → step s = .next { s with inbox := rest, response := .data s.src }) ∧
    (s.inbox = rd 0x034 :: rest → step s = .next { s with inbox := rest, response := .data s.dst }) ∧
    (s.inbox = rd 0x038 :: rest → step s = .next { s with inbox := rest, response := .data s.len }) ∧
    (s.inbox = rd 0x03C :: rest → step s = .next { s with inbox := rest, response := .data s.faddr }) ∧
    (s.inbox = rd 0x040 :: rest → step s = .next { s with inbox := rest, response := .data 0 })

/-- 10_state.md R45, R30; 60_exceptions.md R211: while BUSY a write to CMD, KEY0..KEY3, V0, V1, SRC, DST or LEN is
dropped and sets OVR. -/
def Obligations.BusyWritesAreDropped : Prop :=
  ∀ (s : State) (w : Word) (rest : List Event), s.status.busy = true →
    ∀ offset ∈ ([0x010, 0x014, 0x018, 0x01C, 0x020, 0x024, 0x030, 0x034, 0x038, 0x040] : List (BitVec 12)),
      s.inbox = wr offset w :: rest →
      step s = .next { s with inbox := rest, response := .written, status := { s.status with ovr := true } }

/-- 10_state.md R38, R40, R41, R45: writes to FADDR and to the windows of RKF and RKP are ignored, BUSY or not. -/
def Obligations.ReadOnlyWritesAreIgnored : Prop :=
  ∀ (s : State) (w : Word) (offset : BitVec 12) (rest : List Event),
    offset = 0x03C ∨ (0x100 ≤ offset.toNat ∧ offset.toNat < 0x300 ∧ offset.toNat % 4 = 0) →
    s.inbox = wr offset w :: rest →
    step s = .next { s with inbox := rest, response := .written }

/-- 10_state.md R47: a reserved offset reads 0, and a write to it changes nothing. -/
def Obligations.ReservedOffsetsReadZero : Prop :=
  ∀ (s : State) (offset : BitVec 12) (rest : List Event), offset.toNat % 4 = 0 →
    offset.toNat = 0x028 ∨ offset.toNat = 0x02C ∨ (0x044 ≤ offset.toNat ∧ offset.toNat ≤ 0x0FC) ∨
      (0x300 ≤ offset.toNat ∧ offset.toNat ≤ 0xFFC) →
    (s.inbox = rd offset :: rest → step s = .next { s with inbox := rest, response := .data 0 }) ∧
      ∀ w, s.inbox = wr offset w :: rest → step s = .next { s with inbox := rest, response := .written }

/-- 10_state.md R22, R40, R41: the windows of the round-key stores: a read of a store that has been written since
reset, while no command writes it, gives its word. -/
def Obligations.StoreWindowsRead : Prop :=
  ∀ (s : State) (rest : List Event), s.status.busy = false →
    (s.rkfWritten = true → ∀ i : Fin 64, s.inbox = rd (BitVec.ofNat 12 (0x100 + 4 * i.val)) :: rest →
      step s = .next { s with inbox := rest, response := .data s.rkf[i.val] }) ∧
    (s.rkpWritten = true → ∀ r : Fin 32,
      (s.inbox = rd (BitVec.ofNat 12 (0x200 + 8 * r.val)) :: rest →
        step s = .next { s with inbox := rest, response := .data s.rkp[r.val].a }) ∧
      (s.inbox = rd (BitVec.ofNat 12 (0x204 + 8 * r.val)) :: rest →
        step s = .next { s with inbox := rest, response := .data s.rkp[r.val].b }))

/-- 10_state.md R40, R41: a read of a store that nothing has written since reset is a draw. -/
def Obligations.UnwrittenStoresReadDraws : Prop :=
  ∀ (s : State) (offset : BitVec 12) (rest : List Event), offset.toNat % 4 = 0 →
    (s.rkfWritten = false ∧ 0x100 ≤ offset.toNat ∧ offset.toNat < 0x200) ∨
      (s.rkpWritten = false ∧ 0x200 ≤ offset.toNat ∧ offset.toNat < 0x300) →
    s.inbox = rd offset :: rest →
    step s = .next { s with inbox := rest, response := .data (Config.freeWord s.draws), draws := s.draws + 1 }

/-- 10_state.md R44: while BUSY, V0 and V1 under ENCB or DECB, RKF under EXPF and RKP under EXPP read draws; every other
register reads what it holds (a store, where it has been written since reset). -/
def Obligations.BusyReads : Prop :=
  ∀ (s : State) (i : Instr) (offset : BitVec 12) (rest : List Event),
    s.status.busy = true → decode s.cmd = .ok i → offset.toNat % 4 = 0 → s.inbox = rd offset :: rest →
    ((i.isBlock = true ∧ (offset = 0x020 ∨ offset = 0x024)) ∨
        (i = .expf ∧ 0x100 ≤ offset.toNat ∧ offset.toNat < 0x200) ∨
        (i = .expp ∧ 0x200 ≤ offset.toNat ∧ offset.toNat < 0x300) →
      step s = .next { s with inbox := rest, response := .data (Config.freeWord s.draws), draws := s.draws + 1 }) ∧
    (offset = 0x000 → step s = .next { s with inbox := rest, response := .data 0x58544541 }) ∧
    (offset = 0x004 → step s = .next { s with inbox := rest, response := .data 0x00000001 }) ∧
    (offset = 0x008 → step s = .next { s with inbox := rest, response := .data (statusWord s.status) }) ∧
    (offset = 0x00C → step s = .next { s with inbox := rest, response := .data (intenWord s.donie) }) ∧
    (∀ j : Fin 4, offset.toNat = 0x010 + 4 * j.val →
      step s = .next { s with inbox := rest, response := .data s.key[j.val] }) ∧
    (i.isBlock = false → offset = 0x020 → step s = .next { s with inbox := rest, response := .data s.v0 }) ∧
    (i.isBlock = false → offset = 0x024 → step s = .next { s with inbox := rest, response := .data s.v1 }) ∧
    (offset = 0x030 → step s = .next { s with inbox := rest, response := .data s.src }) ∧
    (offset = 0x034 → step s = .next { s with inbox := rest, response := .data s.dst }) ∧
    (offset = 0x038 → step s = .next { s with inbox := rest, response := .data s.len }) ∧
    (offset = 0x03C → step s = .next { s with inbox := rest, response := .data s.faddr }) ∧
    (offset = 0x040 → step s = .next { s with inbox := rest, response := .data 0 }) ∧
    (i ≠ .expf → s.rkfWritten = true → ∀ j : Fin 64, offset.toNat = 0x100 + 4 * j.val →
      step s = .next { s with inbox := rest, response := .data s.rkf[j.val] }) ∧
    (i ≠ .expp → s.rkpWritten = true → ∀ r : Fin 32,
      (offset.toNat = 0x200 + 8 * r.val → step s = .next { s with inbox := rest, response := .data s.rkp[r.val].a }) ∧
      (offset.toNat = 0x204 + 8 * r.val → step s = .next { s with inbox := rest, response := .data s.rkp[r.val].b }))

/-- 20_memory.md R55, 60_exceptions.md R210: an access that is not 32 bits wide at a multiple of 4 gets a bus error, and
no engine state changes. -/
def Obligations.IllegalAccessIsABusError : Prop :=
  ∀ (s : State) (t : Transaction) (rest : List Event), t.size ≠ 4 ∨ t.offset.toNat % 4 ≠ 0 →
    s.inbox = .access t :: rest →
    ∃ u, step s = .next u ∧ SameEngine s u ∧ u.inbox = rest ∧
      match t.dir with
      | .rd => u.response = .busErrorRead (Config.freeWord s.draws)
      | .wr => u.response = .busErrorWrite

/-- 60_exceptions.md R212: irq = STATUS.DONE AND INTEN.DONEIE. -/
def Obligations.IrqIsDoneAndEnabled : Prop :=
  ∀ s : State, s.irq = ((statusWord s.status).getLsbD 1 && (intenWord s.donie).getLsbD 0)

/-! ### Host memory accesses (20_memory.md R66) -/

/-- 20_memory.md R66: a host access to a byte of S or Dr while ENC or DEC is BUSY is the fault RACE; with no buffer
command running, or outside S and Dr, a host access to ordinary memory is made and touches nothing else. -/
def Obligations.HostMemoryAccess : Prop :=
  ∀ (s : State) (a : Word) (b : Byte) (rest : List Event),
    s.inbox = .memRead a :: rest ∨ s.inbox = .memWrite a b :: rest →
    ((∃ i, s.status.busy = true ∧ decode s.cmd = .ok i ∧ i.isBuffer = true) ∧ Touches s a.toNat →
      step s = .fault .race) ∧
    (¬ ((∃ i, s.status.busy = true ∧ decode s.cmd = .ok i ∧ i.isBuffer = true) ∧ Touches s a.toNat) →
      NoneHolds s.platform.sideEffects a.toNat →
      (s.inbox = .memRead a :: rest →
        step s = .next { s with inbox := rest, response := .byte (s.mem.read a.toNat) }) ∧
      (s.inbox = .memWrite a b :: rest → s.mem.wf = true →
        ∃ t, step s = .next t ∧ t = { s with inbox := rest, response := .byteWritten, mem := t.mem } ∧
          ∀ c, t.mem.read c = if c = a.toNat then b else s.mem.read c))

/-! ### Reset (10_state.md R46; 70_reset_and_hazards.md) -/

/-- 10_state.md R46: what reset leaves, as the port reads it (`none` is a draw); the engine is IDLE and irq is 0. -/
def Obligations.ResetState : Prop :=
  statusWord State.reset.status = 0 ∧ intenWord State.reset.donie = 0 ∧
    (∀ j : Fin 4, State.reset.key[j.val] = 0) ∧ State.reset.v0 = 0 ∧ State.reset.v1 = 0 ∧
    State.reset.src = 0 ∧ State.reset.dst = 0 ∧ State.reset.len = 0 ∧ State.reset.faddr = 0 ∧
    State.reset.irq = false ∧
    (∀ i, readReg (.rkf i) State.reset = none) ∧
    (∀ r, readReg (.rkpA r) State.reset = none ∧ readReg (.rkpB r) State.reset = none) ∧
    readReg .id State.reset = some 0x58544541 ∧ readReg .version State.reset = some 0x00000001

/-- 70_reset_and_hazards.md R230, R231: the reset input puts every register at its reset value from any state; memory
stays, but for Dr of a running ENC or DEC, whose bytes become draws. Nothing is said of the words that the stores hold
while they are marked unwritten, nor of the latched word of the idle engine. A running ENC or DEC is taken to be over
ordinary memory: 20_memory.md R58 gives another no meaning, no step makes one BUSY (`StepKeepsRunningLegal`), and the
model refuses its reset (`SideEffectMemoryIsRefused`; log entry 18). -/
def Obligations.ResetEventRestoresReset : Prop :=
  ∀ (s : State) (rest : List Event), s.inbox = .reset :: rest → s.mem.wf = true →
    ((∃ i, s.status.busy = true ∧ decode s.cmd = .ok i ∧ i.isBuffer = true) → OrdinaryMemory s) →
    ∃ t first, step s = .next t ∧
      t = { State.reset with
        rkf := t.rkf
        rkp := t.rkp
        cmd := t.cmd
        mem := t.mem
        platform := s.platform
        inbox := rest
        response := t.response
        draws := t.draws } ∧
      ((∃ i, s.status.busy = true ∧ decode s.cmd = .ok i ∧ i.isBuffer = true) →
        (∀ j < 8 * s.blocks, t.mem.read (s.dst.toNat + j) = Config.freeByte (first + j)) ∧
        ∀ c, c < s.dst.toNat ∨ s.dst.toNat + 8 * s.blocks ≤ c → t.mem.read c = s.mem.read c) ∧
      (¬ (∃ i, s.status.busy = true ∧ decode s.cmd = .ok i ∧ i.isBuffer = true) → t.mem = s.mem)

/-- 70_reset_and_hazards.md R230: an idle engine to which the host sends nothing waits. -/
def Obligations.IdleEngineWaits : Prop :=
  (∀ s : State, RunEnded s → step s = .next s) ∧ RunEnded State.reset

/-! ### Whole-machine rules -/

/-- 10_state.md R26: BUSY is set only by a CMD write with BUSY = 0 whose command passes the acceptance checks. That an ENC
or DEC which becomes BUSY covers ordinary memory only is the model's choice: 20_memory.md R58 has another refused and
does not say at which point, and the model refuses it at its CMD write (log entry 12). -/
def Obligations.BusyIsSetOnlyByAnAcceptedCmdWrite : Prop :=
  ∀ s t : State, step s = .next t → s.status.busy = false → t.status.busy = true →
    ∃ w i rest, s.inbox = wr 0x040 w :: rest ∧ decode w = .ok i ∧
      ScheduleReady i.keySource s ∧ (i.isBuffer = true → BufferFits s ∧ OrdinaryMemory s)

/-- 10_state.md R28, R29: FV is set only by the completion of EXPF, and PV only by that of EXPP: the engine was BUSY with
it, and afterwards BUSY = 0 and DONE = 1. -/
def Obligations.ValidityFlagsAreSetOnlyByExpansion : Prop :=
  ∀ s t : State, step s = .next t →
    (s.status.fv = false → t.status.fv = true →
      s.status.busy = true ∧ decode s.cmd = .ok .expf ∧ t.status.busy = false ∧ t.status.done = true) ∧
    (s.status.pv = false → t.status.pv = true →
      s.status.busy = true ∧ decode s.cmd = .ok .expp ∧ t.status.busy = false ∧ t.status.done = true)

/-- 10_state.md R38: FADDR changes only when a command ends with ERR = BUS, or at reset. -/
def Obligations.FaddrChangesOnlyOnBusOrReset : Prop :=
  ∀ s t : State, step s = .next t → t.faddr ≠ s.faddr →
    (s.status.busy = true ∧ t.status.err = .bus ∧ t.status.done = true) ∨ ∃ rest, s.inbox = .reset :: rest

/-- 10_state.md R34: KEY changes only by a host write with BUSY = 0 or at reset, and never while BUSY otherwise. -/
def Obligations.KeyChangesOnlyByHostWrite : Prop :=
  ∀ s t : State, step s = .next t → t.key ≠ s.key →
    (∃ rest, s.inbox = .reset :: rest) ∨
      (s.status.busy = false ∧ t.status.fv = false ∧ t.status.pv = false ∧
        ∃ (j : Fin 4) (w : Word) (rest : List Event),
          s.inbox = wr (BitVec.ofNat 12 (0x010 + 4 * j.val)) w :: rest ∧ t.key = s.key.set j.val w)

/-! ### Invariants -/

/-- 10_state.md R48: a step keeps the schedule validity invariant, from every state that meets it. -/
def Obligations.StepKeepsSchedulesValid : Prop :=
  ∀ s t : State, SchedulesValid s → step s = .next t → SchedulesValid t

/-- 20_memory.md R51: a step keeps memory canonical and within its 2^32 addresses: the engine never computes an address
beyond them. A running command is assumed to have passed its checks (`RunningLegal`, with its clauses of log entries 4 and 12), because a reset draws its
Dr. -/
def Obligations.StepKeepsMemoryCanonical : Prop :=
  ∀ s t : State, MemoryCanonical s → RunningLegal s → step s = .next t → MemoryCanonical t

/-- 10_state.md R26-R31, R42, R45: a step keeps that a BUSY engine runs a legal command that passed its checks, over
ordinary memory if it is ENC or DEC, with DONE = 0 and ERR = NONE, and that an idle one has discarded its command word.
Two clauses are the model's choice: that no ENC or DEC over other memory is ever BUSY, because 20_memory.md R58 has it
refused, does not say at which point, and the model refuses it at its CMD write (log entry 12); and that the discarded
word is 0 (log entry 4). -/
def Obligations.StepKeepsRunningLegal : Prop :=
  ∀ s t : State, RunningLegal s → step s = .next t → RunningLegal t

/-- The state after reset meets the three invariants. That the hidden command word of the idle engine is 0 is the model's
choice (log entry 4), and so is what memory holds that nothing has written (log entry 2). -/
def Obligations.ResetMeetsTheInvariants : Prop :=
  SchedulesValid State.reset ∧ MemoryCanonical State.reset ∧ RunningLegal State.reset
end

