-- ==== Sys2Proof/Laws/Memory.lean ====
section
/-! SUPPORT. The laws of memory: every operation keeps the canonical form and the memory space, a read after a write
gives what was written there and what stood elsewhere, and two canonical memories that read the same are equal. -/

namespace Sys2Proof.Machine

/-! ### One byte -/

theorem Memory.wfFrom_mono {lo hi : Nat} {m : Memory} (h : lo ≤ hi) (hm : Memory.wfFrom hi m = true) :
    Memory.wfFrom lo m = true := by
  cases m with
  | nil => rfl
  | cons c rest =>
    simp only [Memory.wfFrom, Bool.and_eq_true, decide_eq_true_eq] at hm ⊢
    exact ⟨⟨by omega, hm.1.2⟩, hm.2⟩

/-- Below the first listed address memory reads as unlisted. -/
theorem Memory.read_below {lo a : Nat} {m : Memory} (hm : Memory.wfFrom lo m = true) (h : a < lo) :
    Memory.read m a = unlistedByte := by
  cases m with
  | nil => rfl
  | cons c rest =>
    simp only [Memory.wfFrom, Bool.and_eq_true, decide_eq_true_eq] at hm
    simp [Memory.read, show a < c.1 by omega]

theorem Memory.put_wfFrom {lo a : Nat} {b : Byte} {rest : Memory} (ha : lo ≤ a)
    (h : Memory.wfFrom (a + 1) rest = true) : Memory.wfFrom lo (Memory.put a b rest) = true := by
  unfold Memory.put
  split
  · exact Memory.wfFrom_mono (by omega) h
  · simpa [Memory.wfFrom, ha, h]

theorem Memory.write_wfFrom {lo a : Nat} {b : Byte} {m : Memory} (ha : lo ≤ a)
    (h : Memory.wfFrom lo m = true) : Memory.wfFrom lo (m.write a b) = true := by
  induction m generalizing lo with
  | nil => exact Memory.put_wfFrom ha rfl
  | cons c rest ih =>
    obtain ⟨x, y⟩ := c
    simp only [Memory.wfFrom, Bool.and_eq_true, decide_eq_true_eq] at h
    simp only [Memory.write]
    split
    · refine Memory.put_wfFrom ha ?_
      simp only [Memory.wfFrom, Bool.and_eq_true, decide_eq_true_eq]
      exact ⟨⟨by omega, h.1.2⟩, h.2⟩
    · split
      · next he => exact Memory.put_wfFrom ha (by rw [he]; exact h.2)
      · simp only [Memory.wfFrom, Bool.and_eq_true, decide_eq_true_eq]
        exact ⟨h.1, ih (by omega) h.2⟩

/-- A write keeps the canonical form. -/
theorem Memory.write_wf {m : Memory} (a : Nat) (b : Byte) (h : m.wf = true) : (m.write a b).wf = true :=
  Memory.write_wfFrom (Nat.zero_le a) h

theorem Memory.read_put {lo a : Nat} {b : Byte} {rest : Memory} (h : Memory.wfFrom lo rest = true) (ha : a < lo)
    (c : Nat) : (Memory.put a b rest).read c = if c = a then b else Memory.read rest c := by
  unfold Memory.put
  split
  · next hb =>
    split
    · next hc => rw [hb, hc]; exact Memory.read_below h ha
    · rfl
  · simp only [Memory.read]
    by_cases hlt : c < a
    · simp only [hlt, if_true, show c ≠ a by omega, if_false]
      exact (Memory.read_below h (by omega)).symm
    · simp [hlt]

theorem Memory.read_writeFrom {lo a : Nat} {b : Byte} {m : Memory} (h : Memory.wfFrom lo m = true) (c : Nat) :
    (m.write a b).read c = if c = a then b else m.read c := by
  induction m generalizing lo with
  | nil => exact Memory.read_put (lo := a + 1) rfl (by omega) c
  | cons d rest ih =>
    obtain ⟨x, y⟩ := d
    have h' := h
    simp only [Memory.wfFrom, Bool.and_eq_true, decide_eq_true_eq] at h
    simp only [Memory.write]
    split
    · next hax =>
      refine Memory.read_put (lo := a + 1) ?_ (by omega) c
      simp only [Memory.wfFrom, Bool.and_eq_true, decide_eq_true_eq]
      exact ⟨⟨by omega, h.1.2⟩, h.2⟩
    · split
      · next he =>
        subst he
        rw [Memory.read_put h.2 (by omega)]
        by_cases hc : c = a
        · simp [hc]
        · simp only [hc, if_false, Memory.read]
          by_cases hlt : c < a
          · simp only [hlt, if_true]; exact Memory.read_below h.2 (by omega)
          · simp [hlt]
      · next hlt hne =>
        simp only [Memory.read, ih h.2]
        by_cases hca : c = a
        · subst hca; simp [hlt, hne]
        · simp [hca]

/-- A read after a write: the byte written at its address, the old byte elsewhere. -/
theorem Memory.read_write {m : Memory} (h : m.wf = true) (a : Nat) (b : Byte) (c : Nat) :
    (m.write a b).read c = if c = a then b else m.read c := Memory.read_writeFrom h c

theorem Memory.eq_of_readFrom {lo : Nat} {m m' : Memory} (h : Memory.wfFrom lo m = true)
    (h' : Memory.wfFrom lo m' = true) (hr : ∀ a, Memory.read m a = Memory.read m' a) : m = m' := by
  induction m generalizing lo m' with
  | nil =>
    cases m' with
    | nil => rfl
    | cons d rest =>
      simp only [Memory.wfFrom, Bool.and_eq_true, bne_iff_ne] at h'
      exact absurd (by simpa [Memory.read] using (hr d.1).symm) h'.1.2
  | cons c rest ih =>
    simp only [Memory.wfFrom, Bool.and_eq_true, decide_eq_true_eq, bne_iff_ne] at h
    cases m' with
    | nil => exact absurd (by simpa [Memory.read] using hr c.1) h.1.2
    | cons d rest' =>
      simp only [Memory.wfFrom, Bool.and_eq_true, decide_eq_true_eq, bne_iff_ne] at h'
      obtain ⟨x, b⟩ := c
      obtain ⟨y, e⟩ := d
      have hxy : x = y := by
        rcases Nat.lt_trichotomy x y with hlt | heq | hgt
        · exact absurd (by simpa [Memory.read, hlt] using hr x) h.1.2
        · exact heq
        · exact absurd (by simpa [Memory.read, hgt] using (hr y).symm) h'.1.2
      subst hxy
      have hbe : b = e := by simpa [Memory.read] using hr x
      subst hbe
      refine congrArg _ (ih h.2 h'.2 fun a => ?_)
      by_cases hlt : a ≤ x
      · rw [Memory.read_below h.2 (by omega), Memory.read_below h'.2 (by omega)]
      · simpa [Memory.read, show ¬ a < x by omega, show ¬ a = x by omega] using hr a

/-- Two canonical memories that read the same at every address are equal. -/
theorem Memory.eq_of_read {m m' : Memory} (h : m.wf = true) (h' : m'.wf = true)
    (hr : ∀ a, Memory.read m a = Memory.read m' a) : m = m' := Memory.eq_of_readFrom h h' hr

theorem Memory.put_inSpace {a : Nat} {b : Byte} {rest : Memory} (ha : a < Config.addressSpace)
    (h : rest.inSpace = true) : (Memory.put a b rest).inSpace = true := by
  unfold Memory.put
  split
  · exact h
  · simp only [Memory.inSpace, List.all_cons, Bool.and_eq_true] at h ⊢; exact ⟨by simpa using ha, h⟩

/-- A write at an address of the memory space lists no other address. -/
theorem Memory.write_inSpace {m : Memory} {a : Nat} (b : Byte) (ha : a < Config.addressSpace)
    (h : m.inSpace = true) : (m.write a b).inSpace = true := by
  induction m with
  | nil => exact Memory.put_inSpace ha rfl
  | cons c rest ih =>
    obtain ⟨x, y⟩ := c
    have hrest : Memory.inSpace rest = true := by
      simp only [Memory.inSpace, List.all_cons, Bool.and_eq_true] at h ⊢; exact h.2
    simp only [Memory.write]
    split
    · exact Memory.put_inSpace ha h
    · split
      · exact Memory.put_inSpace ha hrest
      · have := ih hrest
        simp only [Memory.inSpace, List.all_cons, Bool.and_eq_true] at h this ⊢
        exact ⟨h.1, this⟩

/-! ### Runs of bytes -/

/-- What writing byte `f k` to address `a + k`, for k below `n`, does. -/
theorem Memory.writes_spec (f : Nat → Byte) (a n : Nat) {m : Memory} (h : m.wf = true) :
    ((List.range n).foldl (fun m k => m.write (a + k) (f k)) m).wf = true ∧
      ∀ c, Memory.read ((List.range n).foldl (fun m k => m.write (a + k) (f k)) m) c =
        if a ≤ c ∧ c < a + n then f (c - a) else m.read c := by
  induction n with
  | zero => exact ⟨h, fun c => by rw [if_neg (by omega)]; rfl⟩
  | succ n ih =>
    rw [List.range_succ, List.foldl_append]
    simp only [List.foldl_cons, List.foldl_nil]
    refine ⟨Memory.write_wf _ _ ih.1, fun c => ?_⟩
    rw [Memory.read_write ih.1, ih.2]
    by_cases hc : c = a + n
    · subst hc; simp
    · simp only [hc, if_false, show (a ≤ c ∧ c < a + (n + 1)) ↔ (a ≤ c ∧ c < a + n) by omega]

theorem Memory.writes_inSpace (f : Nat → Byte) (a n : Nat) {m : Memory} (h : m.inSpace = true)
    (hn : n = 0 ∨ a + n ≤ Config.addressSpace) :
    Memory.inSpace ((List.range n).foldl (fun m k => m.write (a + k) (f k)) m) = true := by
  induction n with
  | zero => exact h
  | succ n ih =>
    rw [List.range_succ, List.foldl_append]
    exact Memory.write_inSpace _ (by omega) (ih (by omega))

/-- Draws into memory keep the canonical form, and change nothing outside their range. -/
theorem drawBytes_spec {m : Memory} (h : m.wf = true) (a count first : Nat) :
    (drawBytes m a count first).wf = true ∧
      ∀ c, (drawBytes m a count first).read c =
        if a ≤ c ∧ c < a + count then Config.freeByte (first + (c - a)) else m.read c :=
  Memory.writes_spec (fun j => Config.freeByte (first + j)) a count h

theorem drawBytes_inSpace {m : Memory} (h : m.inSpace = true) (a count first : Nat)
    (hn : count = 0 ∨ a + count ≤ Config.addressSpace) : (drawBytes m a count first).inSpace = true :=
  Memory.writes_inSpace (fun j => Config.freeByte (first + j)) a count h hn

/-! ### Blocks -/

/-- What a block write does: the canonical form stays, the eight bytes are those of the block, no other changes. -/
theorem storeBlock_spec {m : Memory} (h : m.wf = true) (a : Nat) (b : Block) :
    (storeBlock m a b).wf = true ∧
      ∀ c, (storeBlock m a b).read c =
        if a ≤ c ∧ c < a + 8 then (b.v1 ++ b.v0).extractLsb' (8 * (c - a)) 8 else m.read c :=
  Memory.writes_spec (fun k => (b.v1 ++ b.v0).extractLsb' (8 * k) 8) a 8 h

theorem storeBlock_inSpace {m : Memory} (h : m.inSpace = true) (a : Nat) (b : Block)
    (ha : a + 8 ≤ Config.addressSpace) : (storeBlock m a b).inSpace = true :=
  Memory.writes_inSpace (fun k => (b.v1 ++ b.v0).extractLsb' (8 * k) 8) a 8 h (.inr ha)

/-- A block load depends on the eight bytes of the block alone. -/
theorem loadBlock_congr {m m' : Memory} {a a' : Nat} (h : ∀ k < 8, m.read (a + k) = m'.read (a' + k)) :
    loadBlock m a = loadBlock m' a' := by
  have h0 := h 0 (by omega)
  simp only [Nat.add_zero] at h0
  simp only [loadBlock, memRead8, h0, h 1 (by omega), h 2 (by omega), h 3 (by omega), h 4 (by omega),
    h 5 (by omega), h 6 (by omega), h 7 (by omega)]

/-- The eight bytes of a word, put together, are the word. -/
theorem bytes_of_bits64 (v : BitVec 64) :
    v.extractLsb' 56 8 ++ v.extractLsb' 48 8 ++ v.extractLsb' 40 8 ++ v.extractLsb' 32 8 ++
      v.extractLsb' 24 8 ++ v.extractLsb' 16 8 ++ v.extractLsb' 8 8 ++ v.extractLsb' 0 8 = v := by
  ext i hi
  simp only [BitVec.getElem_append, BitVec.getElem_extractLsb']
  repeat' split
  all_goals (rw [BitVec.getLsbD_eq_getElem (by omega)]; congr 1; omega)

/-- A block load after a block store at the same address gives the block. -/
theorem loadBlock_storeBlock_same {m : Memory} (h : m.wf = true) (a : Nat) (b : Block) :
    loadBlock (storeBlock m a b) a = b := by
  have hk : ∀ k < 8, (storeBlock m a b).read (a + k) = (b.v1 ++ b.v0).extractLsb' (8 * k) 8 := fun k hk => by
    rw [(storeBlock_spec h a b).2]; simp [hk]
  have h8 : memRead8 (storeBlock m a b) a = b.v1 ++ b.v0 := by
    have h0 := hk 0 (by omega)
    simp only [Nat.add_zero] at h0
    rw [memRead8, h0, hk 1 (by omega), hk 2 (by omega), hk 3 (by omega), hk 4 (by omega), hk 5 (by omega),
      hk 6 (by omega), hk 7 (by omega)]
    exact bytes_of_bits64 _
  obtain ⟨v0, v1⟩ := b
  simp only [loadBlock, h8, Block.mk.injEq]
  have happ : ∀ i, BitVec.getLsbD (w := 64) (v1 ++ v0) i = if i < 32 then v0.getLsbD i else v1.getLsbD (i - 32) :=
    fun i => by rw [← BitVec.getLsbD_append (x := v1) (y := v0)]
  constructor
  · ext i hi
    rw [BitVec.getElem_extractLsb', happ, if_pos (by omega), BitVec.getLsbD_eq_getElem (by omega)]
    simp
  · ext i hi
    rw [BitVec.getElem_extractLsb', happ, if_neg (by omega), BitVec.getLsbD_eq_getElem (by omega)]
    simp

/-- A block load away from a block store gives what it gave before. -/
theorem loadBlock_storeBlock_other {m : Memory} (h : m.wf = true) (a c : Nat) (b : Block)
    (hd : c + 8 ≤ a ∨ a + 8 ≤ c) : loadBlock (storeBlock m a b) c = loadBlock m c :=
  loadBlock_congr fun k hk => by
    rw [(storeBlock_spec h a b).2]; simp; omega

end Sys2Proof.Machine
end

