-- ==== Sys2Proof/Laws/Buffer.lean ====
section
/-! SUPPORT. What one pass over the blocks of a buffer does (42_loop_strategy.md R152, R153): block-major order is one
pass with the whole transform, round-major order one pass per round. -/

namespace Sys2Proof.Machine

/-- One pass over n blocks: block i is read at `base + 8i`, changed by `f` and stored at `dst + 8i`. -/
def passBlocks (f : Block → Block) (base dst n : Nat) (m : Memory) : Memory :=
  (List.range n).foldl (fun m i => storeBlock m (dst + 8 * i) (f (loadBlock m (base + 8 * i)))) m

theorem blockMajor_eq_pass (dir : Direction) (sk : Fin 32 → SubKeys) (src dst n : Nat) (m : Memory) :
    blockMajor dir sk src dst n m = passBlocks (transformBlock dir sk) src dst n m := rfl

theorem sweep_eq_pass (dir : Direction) (k : SubKeys) (base dst n : Nat) (m : Memory) :
    sweep dir k base dst n m = passBlocks (fun b => roundStep dir b k) base dst n m := rfl

/-- What a pass does, in place or between disjoint ranges: the canonical form stays, each block of the destination is
the changed block of the source, no byte outside the destination changes. -/
theorem passBlocks_spec (f : Block → Block) {base dst n : Nat} {m : Memory} (h : m.wf = true)
    (hd : base = dst ∨ base + 8 * n ≤ dst ∨ dst + 8 * n ≤ base) :
    (passBlocks f base dst n m).wf = true ∧
      (∀ i < n, loadBlock (passBlocks f base dst n m) (dst + 8 * i) = f (loadBlock m (base + 8 * i))) ∧
      ∀ c, ¬ (dst ≤ c ∧ c < dst + 8 * n) → Memory.read (passBlocks f base dst n m) c = m.read c := by
  induction n with
  | zero => exact ⟨h, fun i hi => absurd hi (by omega), fun c _ => rfl⟩
  | succ n ih =>
    obtain ⟨hwf, hblk, hout⟩ := ih (by omega)
    have hstep : passBlocks f base dst (n + 1) m =
        storeBlock (passBlocks f base dst n m) (dst + 8 * n)
          (f (loadBlock (passBlocks f base dst n m) (base + 8 * n))) := by
      simp only [passBlocks, List.range_succ, List.foldl_append, List.foldl_cons, List.foldl_nil]
    have hsame : loadBlock (passBlocks f base dst n m) (base + 8 * n) = loadBlock m (base + 8 * n) :=
      loadBlock_congr fun k hk => hout _ (by omega)
    rw [hstep, hsame]
    refine ⟨(storeBlock_spec hwf _ _).1, fun i hi => ?_, fun c hc => ?_⟩
    · rcases Nat.lt_succ_iff_lt_or_eq.mp hi with hlt | heq
      · rw [loadBlock_storeBlock_other hwf _ _ _ (by omega)]; exact hblk i hlt
      · subst heq; exact loadBlock_storeBlock_same hwf _ _
    · rw [(storeBlock_spec hwf _ _).2, if_neg (by omega)]; exact hout c (by omega)

/-- A pass keeps memory canonical and within the memory space, wherever its ranges lie below 2^32. -/
theorem passBlocks_keeps (f : Block → Block) {base dst n : Nat} {m : Memory} (h : m.wf = true)
    (hs : m.inSpace = true) (hn : n = 0 ∨ dst + 8 * n ≤ Config.addressSpace) :
    (passBlocks f base dst n m).wf = true ∧ (passBlocks f base dst n m).inSpace = true := by
  induction n with
  | zero => exact ⟨h, hs⟩
  | succ n ih =>
    obtain ⟨hwf, hsp⟩ := ih (by omega)
    have hstep : passBlocks f base dst (n + 1) m =
        storeBlock (passBlocks f base dst n m) (dst + 8 * n)
          (f (loadBlock (passBlocks f base dst n m) (base + 8 * n))) := by
      simp only [passBlocks, List.range_succ, List.foldl_append, List.foldl_cons, List.foldl_nil]
    rw [hstep]
    exact ⟨(storeBlock_spec hwf _ _).1, storeBlock_inSpace hsp _ _ (by omega)⟩

/-- Round-major order is a first pass from the source and then passes in place. -/
theorem roundMajor_eq_passes (dir : Direction) (sk : Fin 32 → SubKeys) (src dst n : Nat) (m : Memory) :
    ∃ r rest, roundsOf dir = r :: rest ∧
      roundMajor dir sk src dst n m =
        rest.foldl (fun m r => passBlocks (fun b => roundStep dir b (sk r)) dst dst n m)
          (passBlocks (fun b => roundStep dir b (sk r)) src dst n m) := by
  have hflag : ∀ (l : List (Fin 32)) (m : Memory),
      (l.foldl (fun (p : Bool × Memory) r => (false, sweep dir (sk r) (if p.1 then src else dst) dst n p.2))
        (false, m)).2 = l.foldl (fun m r => passBlocks (fun b => roundStep dir b (sk r)) dst dst n m) m := by
    intro l
    induction l with
    | nil => intro m; rfl
    | cons r l ih => intro m; exact ih _
  cases hl : roundsOf dir with
  | nil => cases dir <;> exact absurd hl (by decide)
  | cons r rest => exact ⟨r, rest, rfl, by rw [roundMajor, hl]; exact hflag rest _⟩

end Sys2Proof.Machine
end

