-- ==== Sys2Proof/Laws/State.lean ====
section
/-! SUPPORT. What each update of the state does to each field, and to what is computed from the fields: one lemma each,
true by unfolding the update, so that no later proof unfolds one. -/

namespace Sys2Proof.Machine

/-! ### Acceptance (10_state.md R49) -/

@[simp] theorem accept_status (i : Instr) (s : State) :
    (accept i s).status = { busy := true, done := false, fv := s.status.fv && i != .expf, pv := s.status.pv && i != .expp, ovr := s.status.ovr, err := .none } := rfl
@[simp] theorem accept_donie (i : Instr) (s : State) : (accept i s).donie = s.donie := rfl
@[simp] theorem accept_key (i : Instr) (s : State) : (accept i s).key = s.key := rfl
@[simp] theorem accept_v0 (i : Instr) (s : State) : (accept i s).v0 = s.v0 := rfl
@[simp] theorem accept_v1 (i : Instr) (s : State) : (accept i s).v1 = s.v1 := rfl
@[simp] theorem accept_src (i : Instr) (s : State) : (accept i s).src = s.src := rfl
@[simp] theorem accept_dst (i : Instr) (s : State) : (accept i s).dst = s.dst := rfl
@[simp] theorem accept_len (i : Instr) (s : State) : (accept i s).len = s.len := rfl
@[simp] theorem accept_faddr (i : Instr) (s : State) : (accept i s).faddr = s.faddr := rfl
@[simp] theorem accept_rkf (i : Instr) (s : State) : (accept i s).rkf = s.rkf := rfl
@[simp] theorem accept_rkfWritten (i : Instr) (s : State) : (accept i s).rkfWritten = s.rkfWritten := rfl
@[simp] theorem accept_rkp (i : Instr) (s : State) : (accept i s).rkp = s.rkp := rfl
@[simp] theorem accept_rkpWritten (i : Instr) (s : State) : (accept i s).rkpWritten = s.rkpWritten := rfl
@[simp] theorem accept_cmd (i : Instr) (s : State) : (accept i s).cmd = encode i := rfl
@[simp] theorem accept_mem (i : Instr) (s : State) : (accept i s).mem = s.mem := rfl
@[simp] theorem accept_platform (i : Instr) (s : State) : (accept i s).platform = s.platform := rfl
@[simp] theorem accept_inbox (i : Instr) (s : State) : (accept i s).inbox = s.inbox := rfl
@[simp] theorem accept_response (i : Instr) (s : State) : (accept i s).response = s.response := rfl
@[simp] theorem accept_draws (i : Instr) (s : State) : (accept i s).draws = s.draws := rfl
@[simp] theorem accept_blocks (i : Instr) (s : State) : (accept i s).blocks = s.blocks := rfl

/-! ### Completion (10_state.md R49) -/

@[simp] theorem complete_status (s : State) :
    (complete s).status = { s.status with busy := false, done := true } := rfl
@[simp] theorem complete_donie (s : State) : (complete s).donie = s.donie := rfl
@[simp] theorem complete_key (s : State) : (complete s).key = s.key := rfl
@[simp] theorem complete_v0 (s : State) : (complete s).v0 = s.v0 := rfl
@[simp] theorem complete_v1 (s : State) : (complete s).v1 = s.v1 := rfl
@[simp] theorem complete_src (s : State) : (complete s).src = s.src := rfl
@[simp] theorem complete_dst (s : State) : (complete s).dst = s.dst := rfl
@[simp] theorem complete_len (s : State) : (complete s).len = s.len := rfl
@[simp] theorem complete_faddr (s : State) : (complete s).faddr = s.faddr := rfl
@[simp] theorem complete_rkf (s : State) : (complete s).rkf = s.rkf := rfl
@[simp] theorem complete_rkfWritten (s : State) : (complete s).rkfWritten = s.rkfWritten := rfl
@[simp] theorem complete_rkp (s : State) : (complete s).rkp = s.rkp := rfl
@[simp] theorem complete_rkpWritten (s : State) : (complete s).rkpWritten = s.rkpWritten := rfl
@[simp] theorem complete_cmd (s : State) : (complete s).cmd = 0 := rfl
@[simp] theorem complete_mem (s : State) : (complete s).mem = s.mem := rfl
@[simp] theorem complete_platform (s : State) : (complete s).platform = s.platform := rfl
@[simp] theorem complete_inbox (s : State) : (complete s).inbox = s.inbox := rfl
@[simp] theorem complete_response (s : State) : (complete s).response = s.response := rfl
@[simp] theorem complete_draws (s : State) : (complete s).draws = s.draws := rfl
@[simp] theorem complete_blocks (s : State) : (complete s).blocks = s.blocks := rfl

/-! ### `raise Error` (60_exceptions.md R200) -/

@[simp] theorem raiseError_status (c : ErrCode) (w : Word) (s : State) :
    (raiseError c w s).status = { s.status with busy := false, done := true, err := c } := rfl
@[simp] theorem raiseError_donie (c : ErrCode) (w : Word) (s : State) : (raiseError c w s).donie = s.donie := rfl
@[simp] theorem raiseError_key (c : ErrCode) (w : Word) (s : State) : (raiseError c w s).key = s.key := rfl
@[simp] theorem raiseError_v0 (c : ErrCode) (w : Word) (s : State) : (raiseError c w s).v0 = s.v0 := rfl
@[simp] theorem raiseError_v1 (c : ErrCode) (w : Word) (s : State) : (raiseError c w s).v1 = s.v1 := rfl
@[simp] theorem raiseError_src (c : ErrCode) (w : Word) (s : State) : (raiseError c w s).src = s.src := rfl
@[simp] theorem raiseError_dst (c : ErrCode) (w : Word) (s : State) : (raiseError c w s).dst = s.dst := rfl
@[simp] theorem raiseError_len (c : ErrCode) (w : Word) (s : State) : (raiseError c w s).len = s.len := rfl
@[simp] theorem raiseError_faddr (c : ErrCode) (w : Word) (s : State) :
    (raiseError c w s).faddr = if c = .bus then w else s.faddr := rfl
@[simp] theorem raiseError_rkf (c : ErrCode) (w : Word) (s : State) : (raiseError c w s).rkf = s.rkf := rfl
@[simp] theorem raiseError_rkfWritten (c : ErrCode) (w : Word) (s : State) :
    (raiseError c w s).rkfWritten = s.rkfWritten := rfl
@[simp] theorem raiseError_rkp (c : ErrCode) (w : Word) (s : State) : (raiseError c w s).rkp = s.rkp := rfl
@[simp] theorem raiseError_rkpWritten (c : ErrCode) (w : Word) (s : State) :
    (raiseError c w s).rkpWritten = s.rkpWritten := rfl
@[simp] theorem raiseError_cmd (c : ErrCode) (w : Word) (s : State) : (raiseError c w s).cmd = 0 := rfl
@[simp] theorem raiseError_mem (c : ErrCode) (w : Word) (s : State) : (raiseError c w s).mem = s.mem := rfl
@[simp] theorem raiseError_platform (c : ErrCode) (w : Word) (s : State) :
    (raiseError c w s).platform = s.platform := rfl
@[simp] theorem raiseError_inbox (c : ErrCode) (w : Word) (s : State) : (raiseError c w s).inbox = s.inbox := rfl
@[simp] theorem raiseError_response (c : ErrCode) (w : Word) (s : State) :
    (raiseError c w s).response = s.response := rfl
@[simp] theorem raiseError_draws (c : ErrCode) (w : Word) (s : State) : (raiseError c w s).draws = s.draws := rfl
@[simp] theorem raiseError_blocks (c : ErrCode) (w : Word) (s : State) : (raiseError c w s).blocks = s.blocks := rfl

/-! ### Rejection (60_exceptions.md R207) -/

@[simp] theorem reject_status (c : ErrCode) (s : State) :
    (reject c s).status = { s.status with done := true, err := c } := rfl
@[simp] theorem reject_donie (c : ErrCode) (s : State) : (reject c s).donie = s.donie := rfl
@[simp] theorem reject_key (c : ErrCode) (s : State) : (reject c s).key = s.key := rfl
@[simp] theorem reject_v0 (c : ErrCode) (s : State) : (reject c s).v0 = s.v0 := rfl
@[simp] theorem reject_v1 (c : ErrCode) (s : State) : (reject c s).v1 = s.v1 := rfl
@[simp] theorem reject_src (c : ErrCode) (s : State) : (reject c s).src = s.src := rfl
@[simp] theorem reject_dst (c : ErrCode) (s : State) : (reject c s).dst = s.dst := rfl
@[simp] theorem reject_len (c : ErrCode) (s : State) : (reject c s).len = s.len := rfl
@[simp] theorem reject_faddr (c : ErrCode) (s : State) : (reject c s).faddr = s.faddr := rfl
@[simp] theorem reject_rkf (c : ErrCode) (s : State) : (reject c s).rkf = s.rkf := rfl
@[simp] theorem reject_rkfWritten (c : ErrCode) (s : State) : (reject c s).rkfWritten = s.rkfWritten := rfl
@[simp] theorem reject_rkp (c : ErrCode) (s : State) : (reject c s).rkp = s.rkp := rfl
@[simp] theorem reject_rkpWritten (c : ErrCode) (s : State) : (reject c s).rkpWritten = s.rkpWritten := rfl
@[simp] theorem reject_cmd (c : ErrCode) (s : State) : (reject c s).cmd = s.cmd := rfl
@[simp] theorem reject_mem (c : ErrCode) (s : State) : (reject c s).mem = s.mem := rfl
@[simp] theorem reject_platform (c : ErrCode) (s : State) : (reject c s).platform = s.platform := rfl
@[simp] theorem reject_inbox (c : ErrCode) (s : State) : (reject c s).inbox = s.inbox := rfl
@[simp] theorem reject_response (c : ErrCode) (s : State) : (reject c s).response = s.response := rfl
@[simp] theorem reject_draws (c : ErrCode) (s : State) : (reject c s).draws = s.draws := rfl
@[simp] theorem reject_blocks (c : ErrCode) (s : State) : (reject c s).blocks = s.blocks := rfl

/-! ### Draws into Dr (60_exceptions.md R208) -/

@[simp] theorem drawDest_status (s : State) : (s.drawDest).status = s.status := rfl
@[simp] theorem drawDest_donie (s : State) : (s.drawDest).donie = s.donie := rfl
@[simp] theorem drawDest_key (s : State) : (s.drawDest).key = s.key := rfl
@[simp] theorem drawDest_v0 (s : State) : (s.drawDest).v0 = s.v0 := rfl
@[simp] theorem drawDest_v1 (s : State) : (s.drawDest).v1 = s.v1 := rfl
@[simp] theorem drawDest_src (s : State) : (s.drawDest).src = s.src := rfl
@[simp] theorem drawDest_dst (s : State) : (s.drawDest).dst = s.dst := rfl
@[simp] theorem drawDest_len (s : State) : (s.drawDest).len = s.len := rfl
@[simp] theorem drawDest_faddr (s : State) : (s.drawDest).faddr = s.faddr := rfl
@[simp] theorem drawDest_rkf (s : State) : (s.drawDest).rkf = s.rkf := rfl
@[simp] theorem drawDest_rkfWritten (s : State) : (s.drawDest).rkfWritten = s.rkfWritten := rfl
@[simp] theorem drawDest_rkp (s : State) : (s.drawDest).rkp = s.rkp := rfl
@[simp] theorem drawDest_rkpWritten (s : State) : (s.drawDest).rkpWritten = s.rkpWritten := rfl
@[simp] theorem drawDest_cmd (s : State) : (s.drawDest).cmd = s.cmd := rfl
@[simp] theorem drawDest_mem (s : State) :
    (s.drawDest).mem = drawBytes s.mem s.dst.toNat (8 * s.blocks) s.draws := rfl
@[simp] theorem drawDest_platform (s : State) : (s.drawDest).platform = s.platform := rfl
@[simp] theorem drawDest_inbox (s : State) : (s.drawDest).inbox = s.inbox := rfl
@[simp] theorem drawDest_response (s : State) : (s.drawDest).response = s.response := rfl
@[simp] theorem drawDest_draws (s : State) : (s.drawDest).draws = s.draws + 8 * s.blocks := rfl
@[simp] theorem drawDest_blocks (s : State) : (s.drawDest).blocks = s.blocks := rfl

/-! ### The body of EXPF (40_key_schedule.md R106) -/

@[simp] theorem expandFlat_status (s : State) :
    (expandFlat s).status = { s.status with busy := false, done := true, fv := true } := rfl
@[simp] theorem expandFlat_donie (s : State) : (expandFlat s).donie = s.donie := rfl
@[simp] theorem expandFlat_key (s : State) : (expandFlat s).key = s.key := rfl
@[simp] theorem expandFlat_v0 (s : State) : (expandFlat s).v0 = s.v0 := rfl
@[simp] theorem expandFlat_v1 (s : State) : (expandFlat s).v1 = s.v1 := rfl
@[simp] theorem expandFlat_src (s : State) : (expandFlat s).src = s.src := rfl
@[simp] theorem expandFlat_dst (s : State) : (expandFlat s).dst = s.dst := rfl
@[simp] theorem expandFlat_len (s : State) : (expandFlat s).len = s.len := rfl
@[simp] theorem expandFlat_faddr (s : State) : (expandFlat s).faddr = s.faddr := rfl
@[simp] theorem expandFlat_rkf (s : State) : (expandFlat s).rkf = flatSchedule s.key := rfl
@[simp] theorem expandFlat_rkfWritten (s : State) : (expandFlat s).rkfWritten = true := rfl
@[simp] theorem expandFlat_rkp (s : State) : (expandFlat s).rkp = s.rkp := rfl
@[simp] theorem expandFlat_rkpWritten (s : State) : (expandFlat s).rkpWritten = s.rkpWritten := rfl
@[simp] theorem expandFlat_cmd (s : State) : (expandFlat s).cmd = 0 := rfl
@[simp] theorem expandFlat_mem (s : State) : (expandFlat s).mem = s.mem := rfl
@[simp] theorem expandFlat_platform (s : State) : (expandFlat s).platform = s.platform := rfl
@[simp] theorem expandFlat_inbox (s : State) : (expandFlat s).inbox = s.inbox := rfl
@[simp] theorem expandFlat_response (s : State) : (expandFlat s).response = s.response := rfl
@[simp] theorem expandFlat_draws (s : State) : (expandFlat s).draws = s.draws := rfl
@[simp] theorem expandFlat_blocks (s : State) : (expandFlat s).blocks = s.blocks := rfl

/-! ### The body of EXPP (40_key_schedule.md R107) -/

@[simp] theorem expandPaired_status (s : State) :
    (expandPaired s).status = { s.status with busy := false, done := true, pv := true } := rfl
@[simp] theorem expandPaired_donie (s : State) : (expandPaired s).donie = s.donie := rfl
@[simp] theorem expandPaired_key (s : State) : (expandPaired s).key = s.key := rfl
@[simp] theorem expandPaired_v0 (s : State) : (expandPaired s).v0 = s.v0 := rfl
@[simp] theorem expandPaired_v1 (s : State) : (expandPaired s).v1 = s.v1 := rfl
@[simp] theorem expandPaired_src (s : State) : (expandPaired s).src = s.src := rfl
@[simp] theorem expandPaired_dst (s : State) : (expandPaired s).dst = s.dst := rfl
@[simp] theorem expandPaired_len (s : State) : (expandPaired s).len = s.len := rfl
@[simp] theorem expandPaired_faddr (s : State) : (expandPaired s).faddr = s.faddr := rfl
@[simp] theorem expandPaired_rkf (s : State) : (expandPaired s).rkf = s.rkf := rfl
@[simp] theorem expandPaired_rkfWritten (s : State) : (expandPaired s).rkfWritten = s.rkfWritten := rfl
@[simp] theorem expandPaired_rkp (s : State) : (expandPaired s).rkp = pairedSchedule s.key := rfl
@[simp] theorem expandPaired_rkpWritten (s : State) : (expandPaired s).rkpWritten = true := rfl
@[simp] theorem expandPaired_cmd (s : State) : (expandPaired s).cmd = 0 := rfl
@[simp] theorem expandPaired_mem (s : State) : (expandPaired s).mem = s.mem := rfl
@[simp] theorem expandPaired_platform (s : State) : (expandPaired s).platform = s.platform := rfl
@[simp] theorem expandPaired_inbox (s : State) : (expandPaired s).inbox = s.inbox := rfl
@[simp] theorem expandPaired_response (s : State) : (expandPaired s).response = s.response := rfl
@[simp] theorem expandPaired_draws (s : State) : (expandPaired s).draws = s.draws := rfl
@[simp] theorem expandPaired_blocks (s : State) : (expandPaired s).blocks = s.blocks := rfl

/-! ### The body of ENCB and DECB (41_block_transform.md R129) -/

@[simp] theorem transformV_status (d : Direction) (ks : KeySource) (s : State) :
    (transformV d ks s).status = { s.status with busy := false, done := true } := rfl
@[simp] theorem transformV_donie (d : Direction) (ks : KeySource) (s : State) :
    (transformV d ks s).donie = s.donie := rfl
@[simp] theorem transformV_key (d : Direction) (ks : KeySource) (s : State) : (transformV d ks s).key = s.key := rfl
@[simp] theorem transformV_v0 (d : Direction) (ks : KeySource) (s : State) :
    (transformV d ks s).v0 = (transformBlock d (s.subKeys ks) s.vBlock).v0 := rfl
@[simp] theorem transformV_v1 (d : Direction) (ks : KeySource) (s : State) :
    (transformV d ks s).v1 = (transformBlock d (s.subKeys ks) s.vBlock).v1 := rfl
@[simp] theorem transformV_src (d : Direction) (ks : KeySource) (s : State) : (transformV d ks s).src = s.src := rfl
@[simp] theorem transformV_dst (d : Direction) (ks : KeySource) (s : State) : (transformV d ks s).dst = s.dst := rfl
@[simp] theorem transformV_len (d : Direction) (ks : KeySource) (s : State) : (transformV d ks s).len = s.len := rfl
@[simp] theorem transformV_faddr (d : Direction) (ks : KeySource) (s : State) :
    (transformV d ks s).faddr = s.faddr := rfl
@[simp] theorem transformV_rkf (d : Direction) (ks : KeySource) (s : State) : (transformV d ks s).rkf = s.rkf := rfl
@[simp] theorem transformV_rkfWritten (d : Direction) (ks : KeySource) (s : State) :
    (transformV d ks s).rkfWritten = s.rkfWritten := rfl
@[simp] theorem transformV_rkp (d : Direction) (ks : KeySource) (s : State) : (transformV d ks s).rkp = s.rkp := rfl
@[simp] theorem transformV_rkpWritten (d : Direction) (ks : KeySource) (s : State) :
    (transformV d ks s).rkpWritten = s.rkpWritten := rfl
@[simp] theorem transformV_cmd (d : Direction) (ks : KeySource) (s : State) : (transformV d ks s).cmd = 0 := rfl
@[simp] theorem transformV_mem (d : Direction) (ks : KeySource) (s : State) : (transformV d ks s).mem = s.mem := rfl
@[simp] theorem transformV_platform (d : Direction) (ks : KeySource) (s : State) :
    (transformV d ks s).platform = s.platform := rfl
@[simp] theorem transformV_inbox (d : Direction) (ks : KeySource) (s : State) :
    (transformV d ks s).inbox = s.inbox := rfl
@[simp] theorem transformV_response (d : Direction) (ks : KeySource) (s : State) :
    (transformV d ks s).response = s.response := rfl
@[simp] theorem transformV_draws (d : Direction) (ks : KeySource) (s : State) :
    (transformV d ks s).draws = s.draws := rfl
@[simp] theorem transformV_blocks (d : Direction) (ks : KeySource) (s : State) : (transformV d ks s).blocks = s.blocks := rfl

/-! ### The body of ENC and DEC without error (42_loop_strategy.md R157) -/

@[simp] theorem transformMem_status (o : LoopOrder) (d : Direction) (ks : KeySource) (s : State) :
    (transformMem o d ks s).status = { s.status with busy := false, done := true } := rfl
@[simp] theorem transformMem_donie (o : LoopOrder) (d : Direction) (ks : KeySource) (s : State) :
    (transformMem o d ks s).donie = s.donie := rfl
@[simp] theorem transformMem_key (o : LoopOrder) (d : Direction) (ks : KeySource) (s : State) :
    (transformMem o d ks s).key = s.key := rfl
@[simp] theorem transformMem_v0 (o : LoopOrder) (d : Direction) (ks : KeySource) (s : State) :
    (transformMem o d ks s).v0 = s.v0 := rfl
@[simp] theorem transformMem_v1 (o : LoopOrder) (d : Direction) (ks : KeySource) (s : State) :
    (transformMem o d ks s).v1 = s.v1 := rfl
@[simp] theorem transformMem_src (o : LoopOrder) (d : Direction) (ks : KeySource) (s : State) :
    (transformMem o d ks s).src = s.src := rfl
@[simp] theorem transformMem_dst (o : LoopOrder) (d : Direction) (ks : KeySource) (s : State) :
    (transformMem o d ks s).dst = s.dst := rfl
@[simp] theorem transformMem_len (o : LoopOrder) (d : Direction) (ks : KeySource) (s : State) :
    (transformMem o d ks s).len = s.len := rfl
@[simp] theorem transformMem_faddr (o : LoopOrder) (d : Direction) (ks : KeySource) (s : State) :
    (transformMem o d ks s).faddr = s.faddr := rfl
@[simp] theorem transformMem_rkf (o : LoopOrder) (d : Direction) (ks : KeySource) (s : State) :
    (transformMem o d ks s).rkf = s.rkf := rfl
@[simp] theorem transformMem_rkfWritten (o : LoopOrder) (d : Direction) (ks : KeySource) (s : State) :
    (transformMem o d ks s).rkfWritten = s.rkfWritten := rfl
@[simp] theorem transformMem_rkp (o : LoopOrder) (d : Direction) (ks : KeySource) (s : State) :
    (transformMem o d ks s).rkp = s.rkp := rfl
@[simp] theorem transformMem_rkpWritten (o : LoopOrder) (d : Direction) (ks : KeySource) (s : State) :
    (transformMem o d ks s).rkpWritten = s.rkpWritten := rfl
@[simp] theorem transformMem_cmd (o : LoopOrder) (d : Direction) (ks : KeySource) (s : State) :
    (transformMem o d ks s).cmd = 0 := rfl
@[simp] theorem transformMem_mem (o : LoopOrder) (d : Direction) (ks : KeySource) (s : State) :
    (transformMem o d ks s).mem = transformBuffer o d (s.subKeys ks) s.src.toNat s.dst.toNat s.blocks s.mem := rfl
@[simp] theorem transformMem_platform (o : LoopOrder) (d : Direction) (ks : KeySource) (s : State) :
    (transformMem o d ks s).platform = s.platform := rfl
@[simp] theorem transformMem_inbox (o : LoopOrder) (d : Direction) (ks : KeySource) (s : State) :
    (transformMem o d ks s).inbox = s.inbox := rfl
@[simp] theorem transformMem_response (o : LoopOrder) (d : Direction) (ks : KeySource) (s : State) :
    (transformMem o d ks s).response = s.response := rfl
@[simp] theorem transformMem_draws (o : LoopOrder) (d : Direction) (ks : KeySource) (s : State) :
    (transformMem o d ks s).draws = s.draws := rfl
@[simp] theorem transformMem_blocks (o : LoopOrder) (d : Direction) (ks : KeySource) (s : State) : (transformMem o d ks s).blocks = s.blocks := rfl

/-! ### The abort (60_exceptions.md R208) -/

@[simp] theorem abortBus_status (s : State) :
    (abortBus s).status = { s.status with busy := false, done := true, err := .bus } := rfl
@[simp] theorem abortBus_donie (s : State) : (abortBus s).donie = s.donie := rfl
@[simp] theorem abortBus_key (s : State) : (abortBus s).key = s.key := rfl
@[simp] theorem abortBus_v0 (s : State) : (abortBus s).v0 = s.v0 := rfl
@[simp] theorem abortBus_v1 (s : State) : (abortBus s).v1 = s.v1 := rfl
@[simp] theorem abortBus_src (s : State) : (abortBus s).src = s.src := rfl
@[simp] theorem abortBus_dst (s : State) : (abortBus s).dst = s.dst := rfl
@[simp] theorem abortBus_len (s : State) : (abortBus s).len = s.len := rfl
@[simp] theorem abortBus_faddr (s : State) :
    (abortBus s).faddr = BitVec.ofNat 32 (pickBlock s.refusedBlocks s.draws) := rfl
@[simp] theorem abortBus_rkf (s : State) : (abortBus s).rkf = s.rkf := rfl
@[simp] theorem abortBus_rkfWritten (s : State) : (abortBus s).rkfWritten = s.rkfWritten := rfl
@[simp] theorem abortBus_rkp (s : State) : (abortBus s).rkp = s.rkp := rfl
@[simp] theorem abortBus_rkpWritten (s : State) : (abortBus s).rkpWritten = s.rkpWritten := rfl
@[simp] theorem abortBus_cmd (s : State) : (abortBus s).cmd = 0 := rfl
@[simp] theorem abortBus_mem (s : State) :
    (abortBus s).mem = drawBytes s.mem s.dst.toNat (8 * s.blocks) (s.draws + 1) := rfl
@[simp] theorem abortBus_platform (s : State) : (abortBus s).platform = s.platform := rfl
@[simp] theorem abortBus_inbox (s : State) : (abortBus s).inbox = s.inbox := rfl
@[simp] theorem abortBus_response (s : State) : (abortBus s).response = s.response := rfl
@[simp] theorem abortBus_draws (s : State) : (abortBus s).draws = s.draws + 1 + 8 * s.blocks := rfl
@[simp] theorem abortBus_blocks (s : State) : (abortBus s).blocks = s.blocks := rfl

/-! ### What reset leaves (70_reset_and_hazards.md R230, R231) -/

@[simp] theorem afterReset_status (s : State) : (afterReset s).status = State.reset.status := rfl
@[simp] theorem afterReset_donie (s : State) : (afterReset s).donie = State.reset.donie := rfl
@[simp] theorem afterReset_key (s : State) : (afterReset s).key = State.reset.key := rfl
@[simp] theorem afterReset_v0 (s : State) : (afterReset s).v0 = State.reset.v0 := rfl
@[simp] theorem afterReset_v1 (s : State) : (afterReset s).v1 = State.reset.v1 := rfl
@[simp] theorem afterReset_src (s : State) : (afterReset s).src = State.reset.src := rfl
@[simp] theorem afterReset_dst (s : State) : (afterReset s).dst = State.reset.dst := rfl
@[simp] theorem afterReset_len (s : State) : (afterReset s).len = State.reset.len := rfl
@[simp] theorem afterReset_faddr (s : State) : (afterReset s).faddr = State.reset.faddr := rfl
@[simp] theorem afterReset_rkf (s : State) : (afterReset s).rkf = State.reset.rkf := rfl
@[simp] theorem afterReset_rkfWritten (s : State) : (afterReset s).rkfWritten = State.reset.rkfWritten := rfl
@[simp] theorem afterReset_rkp (s : State) : (afterReset s).rkp = State.reset.rkp := rfl
@[simp] theorem afterReset_rkpWritten (s : State) : (afterReset s).rkpWritten = State.reset.rkpWritten := rfl
@[simp] theorem afterReset_cmd (s : State) : (afterReset s).cmd = State.reset.cmd := rfl
@[simp] theorem afterReset_mem (s : State) : (afterReset s).mem = if s.bufferBusy then s.drawDest.mem else s.mem := by
  unfold afterReset; split <;> simp [*]
@[simp] theorem afterReset_platform (s : State) : (afterReset s).platform = s.platform := by
  unfold afterReset; split <;> simp [*]
@[simp] theorem afterReset_inbox (s : State) : (afterReset s).inbox = s.inbox := by
  unfold afterReset; split <;> simp [*]
@[simp] theorem afterReset_response (s : State) : (afterReset s).response = State.reset.response := rfl
@[simp] theorem afterReset_draws (s : State) : (afterReset s).draws = if s.bufferBusy then s.drawDest.draws else s.draws := by
  unfold afterReset; split <;> simp [*]

end Sys2Proof.Machine
end

