-- ==== Sys2Proof/Laws/Exec.lean ====
section
/-! SUPPORT. What `exec`, `engineStep`, `submit` and `step` can answer, said once: later proofs cite these and do not
unfold the meanings. -/

namespace Sys2Proof.Machine

variable {i : Instr} {s t : State}

/-- A whole command: it is rejected, or its body runs on the accepted state. -/
theorem runCommand_eq (i : Instr) (body : State → Host.Outcome State Fault Refusal) (s : State) :
    runCommand i body s =
      match rejection i s with
      | some code => .next (raiseError code 0 s)
      | none => body (accept i s) := rfl

/-- What the body of a buffer command can answer. -/
theorem bufferBody_next {o : LoopOrder} {d : Direction} {ks : KeySource} (h : bufferBody o d ks s = .next t) :
    s.coversSideEffects = false ∧
      ((s.refusedBlocks = [] ∧ t = transformMem o d ks s) ∨ (s.refusedBlocks ≠ [] ∧ t = abortBus s)) := by
  unfold bufferBody at h
  split at h
  · cases h
  · next hs =>
    refine ⟨by simpa using hs, ?_⟩
    split at h
    · next hr => exact .inl ⟨hr, (Host.Outcome.next.inj h).symm⟩
    · next hr => exact .inr ⟨hr, (Host.Outcome.next.inj h).symm⟩

/-- The direction of a block or buffer command (30_encoding.md R72). -/
def Instr.direction (i : Instr) : Direction := if i.fields.op = 3 ∨ i.fields.op = 5 then .encrypt else .decrypt

/-- The execution and end of an accepted command, by family. -/
def commandBody (i : Instr) (u : State) : Host.Outcome State Fault Refusal :=
  if i = .expf then .next (expandFlat u)
  else if i = .expp then .next (expandPaired u)
  else if i.isBlock then .next (transformV (Instr.direction i) i.keySource u)
  else bufferBody i.loopOrder (Instr.direction i) i.keySource u

/-- Every command is the checks and then its body: the one equation that unfolds `exec`. -/
theorem exec_eq (i : Instr) (s : State) : exec i s = runCommand i (commandBody i) s := by cases i <;> rfl

/-- How a command ends that is not rejected (10_state.md R49): the four ways, by family. -/
def Ends (i : Instr) (u t : State) : Prop :=
  (i = .expf ∧ t = expandFlat u) ∨ (i = .expp ∧ t = expandPaired u) ∨
    (i.isBlock = true ∧ t = transformV (Instr.direction i) i.keySource u) ∨
    (i.isBuffer = true ∧ u.coversSideEffects = false ∧
      ((u.refusedBlocks = [] ∧ t = transformMem i.loopOrder (Instr.direction i) i.keySource u) ∨
        (u.refusedBlocks ≠ [] ∧ t = abortBus u)))

/-- A command of no other family is a buffer command. -/
theorem isBuffer_of_not (hf : i ≠ .expf) (hp : i ≠ .expp) (hb : ¬ i.isBlock = true) : i.isBuffer = true := by
  cases i <;> first | rfl | exact absurd rfl hf | exact absurd rfl hp | exact absurd rfl hb

/-- What a command's body can answer. -/
theorem commandBody_next {u : State} (h : commandBody i u = .next t) : Ends i u t := by
  unfold commandBody at h
  split at h
  · next he => exact .inl ⟨he, (Host.Outcome.next.inj h).symm⟩
  · next hf =>
    split at h
    · next he => exact .inr (.inl ⟨he, (Host.Outcome.next.inj h).symm⟩)
    · next hp =>
      split at h
      · next hb => exact .inr (.inr (.inl ⟨hb, (Host.Outcome.next.inj h).symm⟩))
      · next hb => exact .inr (.inr (.inr ⟨isBuffer_of_not hf hp hb, bufferBody_next h⟩))

/-- What `exec` can answer. -/
theorem exec_next (h : exec i s = .next t) :
    (∃ code, rejection i s = some code ∧ t = raiseError code 0 s) ∨
      (rejection i s = none ∧ Ends i (accept i s) t) := by
  rw [exec_eq, runCommand_eq] at h
  cases hr : rejection i s with
  | some code => rw [hr] at h; exact .inl ⟨code, rfl, (Host.Outcome.next.inj h).symm⟩
  | none => rw [hr] at h; exact .inr ⟨rfl, commandBody_next h⟩

/-- `exec` of a command that passes its checks. -/
theorem exec_of_accepted (h : rejection i s = none) : exec i s = commandBody i (accept i s) := by
  rw [exec_eq, runCommand_eq, h]

/-- `exec` of a command that does not. -/
theorem exec_of_rejected {code : ErrCode} (h : rejection i s = some code) :
    exec i s = .next (raiseError code 0 s) := by
  rw [exec_eq, runCommand_eq, h]

/-- What the ENGINE's step can answer. -/
theorem engineStep_next (h : engineStep s = .next t) :
    (s.status.busy = false ∧ t = s) ∨
      (s.status.busy = true ∧ ((∃ i, decode s.cmd = .ok i ∧ exec i s = .next t) ∨
        (∃ e, decode s.cmd = .error e ∧ t = raiseError .illegal 0 s))) := by
  unfold engineStep at h
  split at h
  · next hb =>
    refine .inr ⟨hb, ?_⟩
    cases hd : decode s.cmd with
    | ok i => rw [hd] at h; exact .inl ⟨i, rfl, h⟩
    | error e => rw [hd] at h; exact .inr ⟨e, rfl, (Host.Outcome.next.inj h).symm⟩
  · next hb => exact .inl ⟨by simpa using hb, (Host.Outcome.next.inj h).symm⟩

/-- What the submission of a word can answer: it is rejected with a code, or accepted as a legal command that passed its
checks and, if it is ENC or DEC, covers ordinary memory only. -/
theorem submit_next {w : Word} (h : submit w s = .next t) :
    (∃ code, t = reject code s) ∨
      ∃ i, decode w = .ok i ∧ rejection i s = none ∧ (i.isBuffer = true → s.coversSideEffects = false) ∧
        t = accept i s := by
  unfold submit at h
  cases hd : decode w with
  | error e => rw [hd] at h; exact .inl ⟨_, (Host.Outcome.next.inj h).symm⟩
  | ok i =>
    simp only [hd] at h
    cases hr : rejection i s with
    | some code => rw [hr] at h; exact .inl ⟨code, (Host.Outcome.next.inj h).symm⟩
    | none =>
      simp only [hr] at h
      split at h
      · cases h
      · next hc => exact .inr ⟨i, rfl, hr, fun hb => by simpa [hb] using hc, (Host.Outcome.next.inj h).symm⟩

/-- The submission of an illegal word. -/
theorem submit_of_illegal {w : Word} {e : DecodeError} (hd : decode w = .error e) :
    submit w s = .next (reject .illegal s) := by
  simp only [submit, hd]

/-- The submission of a legal command that fails a check. -/
theorem submit_of_failed {w : Word} {code : ErrCode} (hd : decode w = .ok i) (hr : rejection i s = some code) :
    submit w s = .next (reject code s) := by
  simp only [submit, hd, hr]

/-- The submission of a legal command that passes its checks: it is refused over memory with read side effects, and
accepted if not. -/
theorem submit_of_checked {w : Word} (hd : decode w = .ok i) (hr : rejection i s = none) :
    submit w s = if i.isBuffer && s.coversSideEffects then .refused .sideEffectBuffer else .next (accept i s) := by
  simp only [submit, hd, hr]

/-- What a reset can answer. -/
theorem resetEvent_next (h : resetEvent s = .next t) :
    (s.bufferBusy && s.coversSideEffects) = false ∧ t = afterReset s := by
  unfold resetEvent at h
  split at h
  · cases h
  · next hc => exact ⟨by simpa using hc, (Host.Outcome.next.inj h).symm⟩

/-- What a host read of memory can answer. -/
theorem hostRead_next {a : Word} (h : hostRead a s = .next t) :
    s.races a.toNat = false ∧ t = { s with response := .byte (s.mem.read a.toNat) } := by
  unfold hostRead at h
  split at h
  · cases h
  · next hr =>
    split at h
    · cases h
    · exact ⟨by simpa using hr, (Host.Outcome.next.inj h).symm⟩

/-- What a host write of memory can answer. -/
theorem hostWrite_next {a : Word} {b : Byte} (h : hostWrite a b s = .next t) :
    s.races a.toNat = false ∧ t = { s with mem := s.mem.write a.toNat b, response := .byteWritten } := by
  unfold hostWrite at h
  split at h
  · cases h
  · next hr =>
    split at h
    · cases h
    · exact ⟨by simpa using hr, (Host.Outcome.next.inj h).symm⟩

/-- What a register read does: only the model's own fields change. -/
theorem portRead_frame (r : Reg) (s : State) :
    portRead r s = { s with response := (portRead r s).response, draws := (portRead r s).draws } := by
  unfold portRead
  split <;> rfl

/-- What a step can answer: the ENGINE's step with an empty inbox, or the delivery of the first event. -/
theorem step_next (h : step s = .next t) :
    (s.inbox = [] ∧ engineStep s = .next t) ∨
      ∃ e rest, s.inbox = e :: rest ∧ deliver e { s with inbox := rest } = .next t := by
  unfold step at h
  cases hi : s.inbox with
  | nil => rw [hi] at h; exact .inl ⟨rfl, h⟩
  | cons e rest => rw [hi] at h; exact .inr ⟨e, rest, rfl, h⟩

end Sys2Proof.Machine
end

