-- ==== Sys2Proof/Laws/Checks.lean ====
section
/-! SUPPORT. The acceptance checks (60_exceptions.md R209) in the words of Safety.lean, and what they depend on. -/

namespace Sys2Proof.Machine

open Sys2Proof.Safety

theorem lacksSchedule_iff (ks : KeySource) (s : State) : s.lacksSchedule ks = true ↔ ¬ ScheduleReady ks s := by
  cases ks <;> simp [State.lacksSchedule, ScheduleReady]

theorem rangeFails_iff (s : State) :
    s.rangeFails = true ↔
      0 < s.blocks ∧ (2 ^ 32 < s.src.toNat + 8 * s.blocks ∨ 2 ^ 32 < s.dst.toNat + 8 * s.blocks) := by
  simp [State.rangeFails, Config.addressSpace]

theorem overlapFails_iff (s : State) :
    s.overlapFails = true ↔
      0 < s.blocks ∧ s.src ≠ s.dst ∧ s.src.toNat < s.dst.toNat + 8 * s.blocks ∧
        s.dst.toNat < s.src.toNat + 8 * s.blocks := by
  simp [State.overlapFails, and_assoc]

/-- The buffer fits exactly when neither RANGE nor OVERLAP applies. -/
theorem bufferFits_iff (s : State) : BufferFits s ↔ s.rangeFails = false ∧ s.overlapFails = false := by
  rw [← Bool.not_eq_true, ← Bool.not_eq_true, rangeFails_iff, overlapFails_iff, BufferFits]
  by_cases he : s.src = s.dst
  · simp only [he, ne_eq, not_true, false_and, and_false, not_false_eq_true, and_true, true_or]
    omega
  · simp only [he, ne_eq, not_false_eq_true, true_and, false_or]
    omega

/-- A command is accepted exactly when its schedule is ready and, for a buffer command, its buffer fits. -/
theorem rejection_eq_none_iff (i : Instr) (s : State) :
    rejection i s = none ↔ ScheduleReady i.keySource s ∧ (i.isBuffer = true → BufferFits s) := by
  have hs := lacksSchedule_iff i.keySource s
  rw [bufferFits_iff, rejection]
  cases hl : s.lacksSchedule i.keySource <;> cases hb : i.isBuffer <;> cases hr : s.rangeFails <;>
    cases ho : s.overlapFails <;> simp_all

/-- The codes of a failed check (60_exceptions.md R203-R205). -/
theorem rejection_code {i : Instr} {s : State} {code : ErrCode} (h : rejection i s = some code) :
    code = .noSched ∨ code = .range ∨ code = .overlap := by
  unfold rejection at h
  split at h
  · exact .inl (Option.some.inj h).symm
  · split at h
    · exact .inr (.inl (Option.some.inj h).symm)
    · split at h
      · exact .inr (.inr (Option.some.inj h).symm)
      · cases h

/-- The checks read FV, PV, SRC, DST and LEN only. -/
theorem rejection_congr {i : Instr} {s t : State} (hf : t.status.fv = s.status.fv) (hp : t.status.pv = s.status.pv)
    (hs : t.src = s.src) (hd : t.dst = s.dst) (hn : t.len = s.len) : rejection i t = rejection i s := by
  have hb : t.blocks = s.blocks := by rw [State.blocks, State.blocks, hn]
  have hl : t.lacksSchedule i.keySource = s.lacksSchedule i.keySource := by
    unfold State.lacksSchedule; cases i.keySource <;> simp [hf, hp]
  have hr : t.rangeFails = s.rangeFails := by unfold State.rangeFails; rw [hb, hs, hd]
  have ho : t.overlapFails = s.overlapFails := by unfold State.overlapFails; rw [hb, hs, hd]
  rw [rejection, rejection, hl, hr, ho]

/-- The checks do not read the model's own fields. -/
@[simp] theorem rejection_io (i : Instr) (s : State) (rest : List Event) (r : Response) :
    rejection i { s with inbox := rest, response := r } = rejection i s := rfl

/-- A command accepted once passes its checks again: its operands and the store it names have not changed. -/
theorem rejection_accept (i : Instr) (s : State) : rejection i (accept i s) = rejection i s := by
  have hl : (accept i s).lacksSchedule i.keySource = s.lacksSchedule i.keySource := by
    cases i <;> simp [State.lacksSchedule, Instr.keySource, Instr.fields]
  have hr : (accept i s).rangeFails = s.rangeFails := rfl
  have ho : (accept i s).overlapFails = s.overlapFails := rfl
  rw [rejection, rejection, hl, hr, ho]

/-- Acceptance twice is acceptance once. -/
theorem accept_accept (i : Instr) (s : State) : accept i (accept i s) = accept i s := by
  simp [accept]

end Sys2Proof.Machine
end

