-- ==== Sys2Proof/Laws/Command.lean ====
section
/-! SUPPORT. What the commands' forms have in common: acceptance of a block or buffer command, the platform's checks in
the words of Safety.lean, and what either loop order does to memory. -/

namespace Sys2Proof.Machine

open Sys2Proof.Safety

variable {s : State} {i : Instr}

/-! ### Acceptance -/

/-- Acceptance of a command other than EXPF and EXPP changes only BUSY, DONE, ERR and the latched word. -/
theorem accept_of_not_expand (h : i.isBlock = true ∨ i.isBuffer = true) (s : State) :
    accept i s =
      { s with status := { s.status with busy := true, done := false, err := .none }, cmd := encode i } := by
  have he : i ≠ .expf ∧ i ≠ .expp := by constructor <;> (rintro rfl; revert h; decide)
  simp [accept, he]

@[simp] theorem accept_subKeys (i : Instr) (s : State) (ks : KeySource) : (accept i s).subKeys ks = s.subKeys ks := by
  funext r; cases ks <;> rfl

@[simp] theorem accept_vBlock (i : Instr) (s : State) : (accept i s).vBlock = s.vBlock := rfl

@[simp] theorem accept_refusedBlocks (i : Instr) (s : State) : (accept i s).refusedBlocks = s.refusedBlocks := rfl

@[simp] theorem accept_coversSideEffects (i : Instr) (s : State) :
    (accept i s).coversSideEffects = s.coversSideEffects := rfl

/-- What the forms of ENCB and DECB are. -/
theorem blockForm_facts : ∀ f ∈ blockForms, f.1.keySource = f.2.2 ∧ f.1.isBlock = true ∧ f.1.isBuffer = false ∧
    Instr.direction f.1 = f.2.1 ∧ f.1 ≠ .expf ∧ f.1 ≠ .expp := by decide

/-- What the forms of ENC and DEC are. -/
theorem bufferForm_facts : ∀ f ∈ bufferForms, f.1.keySource = f.2.2 ∧ f.1.isBuffer = true ∧ f.1.isBlock = false ∧
    Instr.direction f.1 = f.2.1 ∧ f.1 ≠ .expf ∧ f.1 ≠ .expp := by decide

/-- `exec` of an ENCB or DECB whose schedule is ready. -/
theorem exec_blockForm {f : Instr × Direction × KeySource} (hf : f ∈ blockForms) (h : ScheduleReady f.2.2 s) :
    exec f.1 s = .next (transformV f.2.1 f.2.2 (accept f.1 s)) := by
  obtain ⟨hk, hb, hn, hd, he, hp⟩ := blockForm_facts f hf
  rw [exec_of_accepted ((rejection_eq_none_iff _ _).mpr ⟨by rwa [hk], fun hx => by simp [hn] at hx⟩)]
  simp only [commandBody, he, hp, hb, hk, hd, if_true, if_false]

/-- `exec` of an ENC or DEC that passes its checks. -/
theorem exec_bufferForm {f : Instr × Direction × KeySource} (hf : f ∈ bufferForms) (h : ScheduleReady f.2.2 s)
    (hfit : BufferFits s) : exec f.1 s = bufferBody f.1.loopOrder f.2.1 f.2.2 (accept f.1 s) := by
  obtain ⟨hk, -, hb, hd, he, hp⟩ := bufferForm_facts f hf
  rw [exec_of_accepted ((rejection_eq_none_iff _ _).mpr ⟨by rwa [hk], fun _ => hfit⟩)]
  simp only [commandBody, he, hp, hb, hk, hd, if_false, Bool.false_eq_true]

/-! ### The platform -/

/-- S or Dr meets a region exactly when one of their addresses is in it. -/
theorem Region.meets_iff (g : Region) (lo size : Nat) :
    g.meets lo size = true ↔ ∃ a, (lo ≤ a ∧ a < lo + size) ∧ (g.base ≤ a ∧ a < g.base + g.size) := by
  simp only [Region.meets, decide_eq_true_eq]
  exact ⟨fun h => ⟨max g.base lo, by omega⟩, fun ⟨a, h⟩ => by omega⟩

/-- S and Dr cover no location with read side effects exactly when they are ordinary memory (20_memory.md R58). -/
theorem coversSideEffects_iff (s : State) : s.coversSideEffects = false ↔ OrdinaryMemory s := by
  rw [← Bool.not_eq_true, State.coversSideEffects, List.any_eq_true]
  simp only [Bool.or_eq_true, Region.meets_iff, OrdinaryMemory, NoneHolds, Touches]
  constructor
  · rintro h a (ha | ha) g hg hx
    · exact h ⟨g, hg, .inl ⟨a, ha, hx⟩⟩
    · exact h ⟨g, hg, .inr ⟨a, ha, hx⟩⟩
  · rintro h ⟨g, hg, ⟨a, ha, hx⟩ | ⟨a, ha, hx⟩⟩
    · exact h a (.inl ha) g hg hx
    · exact h a (.inr ha) g hg hx

theorem noneHolds_refused_iff (p : Platform) (a : Nat) : NoneHolds p.refused a ↔ p.admits a = true := by
  simp [NoneHolds, Platform.admits, Region.holds]

theorem noneHolds_sideEffects_iff (p : Platform) (a : Nat) :
    NoneHolds p.sideEffects a ↔ p.hasSideEffects a = false := by
  simp [NoneHolds, Platform.hasSideEffects, Region.holds]

/-- The refused blocks of a command (60_exceptions.md R206). -/
theorem mem_refusedBlocks (s : State) (a : Nat) : a ∈ s.refusedBlocks ↔ RefusedBlock s a := by
  simp only [State.refusedBlocks, State.blockAddresses, List.mem_filter, List.mem_append, List.mem_map,
    List.mem_range, RefusedBlock, noneHolds_refused_iff, Platform.refusesBlock, List.any_eq_true,
    Bool.not_eq_true', Bool.not_eq_true]
  refine and_congr ⟨?_, ?_⟩ Iff.rfl
  · rintro (⟨i, hi, rfl⟩ | ⟨i, hi, rfl⟩)
    · exact ⟨i, hi, .inl rfl⟩
    · exact ⟨i, hi, .inr rfl⟩
  · rintro ⟨i, hi, rfl | rfl⟩
    · exact .inl ⟨i, hi, rfl⟩
    · exact .inr ⟨i, hi, rfl⟩

/-- No block access of a command is refused if the memory admits every byte of S and Dr. -/
theorem refusedBlocks_nil (h : MemoryAnswers s) : s.refusedBlocks = [] := by
  rw [List.eq_nil_iff_forall_not_mem]
  intro a ha
  obtain ⟨⟨i, hi, hor⟩, k, hk, hn⟩ := (mem_refusedBlocks s a).mp ha
  exact hn (h _ (by unfold Touches; omega))

/-- The block that an abort reports is one of those refused. -/
theorem pickBlock_mem {l : List Nat} (h : l ≠ []) (draw : Nat) : pickBlock l draw ∈ l := by
  match l, h with
  | [a], _ => exact List.mem_singleton.mpr rfl
  | a :: b :: rest, _ =>
    have hlt : Config.freeIndex draw % (a :: b :: rest).length < (a :: b :: rest).length :=
      Nat.mod_lt _ (Nat.succ_pos _)
    show (a :: b :: rest).getD (Config.freeIndex draw % (a :: b :: rest).length) a ∈ a :: b :: rest
    rw [List.getD_eq_getElem?_getD, List.getElem?_eq_getElem hlt]
    exact List.getElem_mem hlt

/-! ### Memory after a buffer command -/

/-- The ranges of a command that passed its checks are equal or disjoint. -/
theorem fits_disjoint (h : BufferFits s) : s.src.toNat = s.dst.toNat ∨
    s.src.toNat + 8 * s.blocks ≤ s.dst.toNat ∨ s.dst.toNat + 8 * s.blocks ≤ s.src.toNat := by
  rcases h with h | ⟨-, -, h | h⟩
  · omega
  · exact .inl (by rw [h])
  · exact .inr h

/-- Passes in place: each applies its function to every block of the range, and to nothing else. -/
theorem passesInPlace_spec (g : Fin 32 → Block → Block) (l : List (Fin 32)) {dst n : Nat} {m : Memory}
    (h : m.wf = true) :
    Memory.wf (l.foldl (fun m r => passBlocks (g r) dst dst n m) m) = true ∧
      (∀ i < n, loadBlock (l.foldl (fun m r => passBlocks (g r) dst dst n m) m) (dst + 8 * i) =
        l.foldl (fun b r => g r b) (loadBlock m (dst + 8 * i))) ∧
      ∀ c, ¬ (dst ≤ c ∧ c < dst + 8 * n) →
        Memory.read (l.foldl (fun m r => passBlocks (g r) dst dst n m) m) c = m.read c := by
  induction l generalizing m with
  | nil => exact ⟨h, fun _ _ => rfl, fun _ _ => rfl⟩
  | cons r l ih =>
    have hp := passBlocks_spec (g r) (base := dst) (dst := dst) (n := n) h (.inl rfl)
    obtain ⟨hwf, hblk, hout⟩ := ih hp.1
    simp only [List.foldl_cons]
    exact ⟨hwf, fun i hi => by rw [hblk i hi, hp.2.1 i hi], fun c hc => by rw [hout c hc, hp.2.2 c hc]⟩

/-- What ENC and DEC do to memory, in either order: each block of Dr is the transform of the block of S, and no byte
outside Dr changes. -/
theorem transformBuffer_spec (o : LoopOrder) (d : Direction) (sk : Fin 32 → SubKeys) {src dst n : Nat} {m : Memory}
    (h : m.wf = true) (hd : src = dst ∨ src + 8 * n ≤ dst ∨ dst + 8 * n ≤ src) :
    (transformBuffer o d sk src dst n m).wf = true ∧
      (∀ i < n, loadBlock (transformBuffer o d sk src dst n m) (dst + 8 * i) =
        transformBlock d sk (loadBlock m (src + 8 * i))) ∧
      ∀ c, ¬ (dst ≤ c ∧ c < dst + 8 * n) → (transformBuffer o d sk src dst n m).read c = m.read c := by
  cases o with
  | blockMajor => exact passBlocks_spec _ h hd
  | roundMajor =>
    obtain ⟨r, rest, hr, he⟩ := roundMajor_eq_passes d sk src dst n m
    have h0 := passBlocks_spec (fun b => roundStep d b (sk r)) (base := src) (dst := dst) (n := n) h hd
    have h1 := passesInPlace_spec (fun r b => roundStep d b (sk r)) rest (dst := dst) (n := n) h0.1
    simp only [transformBuffer, he]
    refine ⟨h1.1, fun i hi => ?_, fun c hc => by rw [h1.2.2 c hc, h0.2.2 c hc]⟩
    rw [h1.2.1 i hi, h0.2.1 i hi, transformBlock, hr]
    rfl

/-- A buffer command keeps memory within its space. -/
theorem transformBuffer_keeps (o : LoopOrder) (d : Direction) (sk : Fin 32 → SubKeys) {src dst n : Nat} {m : Memory}
    (h : m.wf = true) (hs : m.inSpace = true) (hn : n = 0 ∨ dst + 8 * n ≤ Config.addressSpace) :
    (transformBuffer o d sk src dst n m).wf = true ∧ (transformBuffer o d sk src dst n m).inSpace = true := by
  cases o with
  | blockMajor => exact passBlocks_keeps _ h hs hn
  | roundMajor =>
    obtain ⟨r, rest, -, he⟩ := roundMajor_eq_passes d sk src dst n m
    simp only [transformBuffer, he]
    have h0 := passBlocks_keeps (fun b => roundStep d b (sk r)) (base := src) h hs hn
    clear he
    generalize passBlocks (fun b => roundStep d b (sk r)) src dst n m = m' at h0
    induction rest generalizing m' with
    | nil => exact h0
    | cons r rest ih => exact ih _ (passBlocks_keeps _ h0.1 h0.2 hn)

/-- With no block there is nothing to do (42_loop_strategy.md R171). -/
theorem transformBuffer_zero (o : LoopOrder) (d : Direction) (sk : Fin 32 → SubKeys) (src dst : Nat) (m : Memory) :
    transformBuffer o d sk src dst 0 m = m := by
  cases o with
  | blockMajor => rfl
  | roundMajor =>
    have key : ∀ (l : List (Fin 32)) (p : Bool × Memory), (l.foldl (fun (p : Bool × Memory) r =>
        (false, sweep d (sk r) (if p.1 then src else dst) dst 0 p.2)) p).2 = p.2 := by
      intro l
      induction l with
      | nil => intro p; rfl
      | cons r l ih => intro p; exact ih (false, p.2)
    exact key (roundsOf d) (true, m)

/-- The eight bytes of a block are those that a block load gives. -/
theorem read_of_loadBlock (m : Memory) (a : Nat) {k : Nat} (hk : k < 8) :
    m.read (a + k) = ((loadBlock m a).v1 ++ (loadBlock m a).v0 : BitVec 64).extractLsb' (8 * k) 8 := by
  have hv : ((loadBlock m a).v1 ++ (loadBlock m a).v0 : BitVec 64) = memRead8 m a := by
    simp only [loadBlock]
    ext i hi
    simp only [BitVec.getElem_append, BitVec.getElem_extractLsb']
    split <;> (rw [BitVec.getLsbD_eq_getElem (by omega)]; congr 1; omega)
  rw [hv, memRead8]
  ext i hi
  simp only [BitVec.getElem_extractLsb', BitVec.getLsbD_append]
  rw [← BitVec.getLsbD_eq_getElem hi]
  interval_cases k <;> (repeat' split) <;> first | omega | (congr 2; omega)

end Sys2Proof.Machine
end

