-- ==== Sys2Proof/Laws/PerInstr.lean ====
section
/-! SUPPORT. Laws made per instruction: the fields of each command word are those of its row of 30_encoding.md R82,
and they are legal (R76). -/

namespace Sys2Proof.Laws.Fields

/-- The encoded word splits into the instruction's fields, which are those of a legal command. -/
def Statement (i : Instr) : Prop := splitFields (encode i) = i.fields ∧ i.wellFormed = true

theorem expf : Statement .expf := ⟨rfl, rfl⟩
theorem expp : Statement .expp := ⟨rfl, rfl⟩
theorem encbRaw : Statement .encbRaw := ⟨rfl, rfl⟩
theorem encbFlat : Statement .encbFlat := ⟨rfl, rfl⟩
theorem encbPaired : Statement .encbPaired := ⟨rfl, rfl⟩
theorem decbRaw : Statement .decbRaw := ⟨rfl, rfl⟩
theorem decbFlat : Statement .decbFlat := ⟨rfl, rfl⟩
theorem decbPaired : Statement .decbPaired := ⟨rfl, rfl⟩
theorem encRawBm : Statement .encRawBm := ⟨rfl, rfl⟩
theorem encFlatBm : Statement .encFlatBm := ⟨rfl, rfl⟩
theorem encPairedBm : Statement .encPairedBm := ⟨rfl, rfl⟩
theorem encRawRm : Statement .encRawRm := ⟨rfl, rfl⟩
theorem encFlatRm : Statement .encFlatRm := ⟨rfl, rfl⟩
theorem encPairedRm : Statement .encPairedRm := ⟨rfl, rfl⟩
theorem decRawBm : Statement .decRawBm := ⟨rfl, rfl⟩
theorem decFlatBm : Statement .decFlatBm := ⟨rfl, rfl⟩
theorem decPairedBm : Statement .decPairedBm := ⟨rfl, rfl⟩
theorem decRawRm : Statement .decRawRm := ⟨rfl, rfl⟩
theorem decFlatRm : Statement .decFlatRm := ⟨rfl, rfl⟩
theorem decPairedRm : Statement .decPairedRm := ⟨rfl, rfl⟩

end Sys2Proof.Laws.Fields
end

