-- ==== Sys2Proof/Laws/Port.lean ====
section
/-! SUPPORT. The register port (10_state.md R22, R45; 30_encoding.md R70): which register an offset names, what a step
does with a legal and with an illegal access, and what a write can do. -/

namespace Sys2Proof.Machine

open Sys2Proof.Safety

/-- Each register stands at its offset (10_state.md R22). -/
@[simp] theorem regAt_offset (r : Reg) : regAt r.offset = r := by
  cases r with
  | key j => revert j; decide
  | rkf i => revert i; decide
  | rkpA r => revert r; decide
  | rkpB r => revert r; decide
  | _ => decide

/-- An access is legal exactly if it is 32 bits wide at a multiple of 4 (30_encoding.md R70). -/
theorem legal_iff (t : Transaction) : t.legal = true ↔ t.size = 4 ∧ t.offset.toNat % 4 = 0 := by
  have h : t.offset.extractLsb' 0 2 = 0 ↔ t.offset.toNat % 4 = 0 := by
    rw [← BitVec.toNat_inj, BitVec.extractLsb'_toNat]; simp
  simp only [Transaction.legal, Bool.and_eq_true, beq_iff_eq, h]

/-- A step that takes a legal write. -/
theorem step_wr {s : State} {offset : BitVec 12} {w : Word} {rest : List Event}
    (h : s.inbox = wr offset w :: rest) (ho : offset.toNat % 4 = 0) :
    step s = portWrite (regAt offset) w { s with inbox := rest } := by
  have hl : ({ dir := .wr, offset := offset, size := 4, wdata := w } : Transaction).legal = true :=
    (legal_iff _).mpr ⟨rfl, ho⟩
  simp only [step, h, wr, deliver, registerAccess, if_pos hl]

/-- A step that takes a legal read. -/
theorem step_rd {s : State} {offset : BitVec 12} {rest : List Event}
    (h : s.inbox = rd offset :: rest) (ho : offset.toNat % 4 = 0) :
    step s = .next (portRead (regAt offset) { s with inbox := rest }) := by
  have hl : ({ dir := .rd, offset := offset, size := 4, wdata := 0 } : Transaction).legal = true :=
    (legal_iff _).mpr ⟨rfl, ho⟩
  simp only [step, h, rd, deliver, registerAccess, if_pos hl]

/-- A step that takes an illegal access. -/
theorem step_illegal {s : State} {t : Transaction} {rest : List Event} (h : s.inbox = .access t :: rest)
    (hl : t.legal = false) : step s = .next (busError t.dir { s with inbox := rest }) := by
  simp [step, h, deliver, registerAccess, hl]

/-- A read that is no draw. -/
theorem portRead_value {r : Reg} {s : State} {w : Word} (h : readReg r s = some w) :
    portRead r s = { s with response := .data w } := by
  simp [portRead, h]

/-- A read that is a draw. -/
theorem portRead_draw {r : Reg} {s : State} (h : readReg r s = none) :
    portRead r s = { s with response := .data (Config.freeWord s.draws), draws := s.draws + 1 } := by
  simp [portRead, h]

/-- A write that is dropped. -/
theorem portWrite_dropped {r : Reg} {w : Word} {s : State} (hr : r.isOperand = true) (hb : s.status.busy = true) :
    portWrite r w s = .next { s with status := { s.status with ovr := true }, response := .written } := by
  simp [portWrite, hr, hb]

/-- A write that is not. -/
theorem portWrite_taken {r : Reg} {w : Word} {s : State} (h : r.isOperand = false ∨ s.status.busy = false) :
    portWrite r w s = writeReg r w { s with response := .written } := by
  rcases h with h | h <;> simp [portWrite, h]

/-- A step that takes a CMD write of an idle engine submits the word. -/
theorem step_cmd {s : State} {w : Word} {rest : List Event} (h : s.inbox = wr 0x040 w :: rest)
    (hb : s.status.busy = false) : step s = submit w { s with inbox := rest, response := .written } := by
  rw [step_wr h (by decide), show regAt 0x040 = .cmd by decide, portWrite_taken (s := { s with inbox := rest }) (.inr hb)]
  rfl

/-- What a register write can answer, said once: it is dropped; or STATUS or INTEN or an operand changes; or a command
is submitted; or nothing changes. -/
theorem portWrite_next {r : Reg} {w : Word} {s t : State} (h : portWrite r w s = .next t) :
    (r.isOperand = true ∧ s.status.busy = true ∧
        t = { s with status := { s.status with ovr := true }, response := .written }) ∨
      (r = .status ∧ t = { s with status := writeStatus w s.status, response := .written }) ∨
      (r = .inten ∧ t = { s with donie := w.getLsbD 0, response := .written }) ∨
      (s.status.busy = false ∧ ∃ j, r = .key j ∧ t =
        { s with
          key := s.key.set j.val w
          status := { s.status with fv := false, pv := false }
          response := .written }) ∨
      (s.status.busy = false ∧ ∃ a b c d e, t =
        { s with v0 := a, v1 := b, src := c, dst := d, len := e, response := .written }) ∨
      (s.status.busy = false ∧ r = .cmd ∧ submit w { s with response := .written } = .next t) ∨
      t = { s with response := .written } := by
  by_cases hd : r.isOperand = true ∧ s.status.busy = true
  · rw [portWrite_dropped hd.1 hd.2] at h
    exact .inl ⟨hd.1, hd.2, (Host.Outcome.next.inj h).symm⟩
  · have ht : r.isOperand = false ∨ s.status.busy = false := by
      cases h1 : r.isOperand <;> cases h2 : s.status.busy <;> simp_all
    rw [portWrite_taken ht] at h
    have hn {u : State} (h : Host.Outcome.next u = (.next t : Host.Outcome State Fault Refusal)) : t = u :=
      (Host.Outcome.next.inj h).symm
    have hb : r.isOperand = true → s.status.busy = false := fun h => by simpa [h] using ht
    cases r with
    | cmd => exact .inr (.inr (.inr (.inr (.inr (.inl ⟨hb rfl, rfl, h⟩)))))
    | status => exact .inr (.inl ⟨rfl, hn h⟩)
    | inten => exact .inr (.inr (.inl ⟨rfl, hn h⟩))
    | key j => exact .inr (.inr (.inr (.inl ⟨hb rfl, j, rfl, hn h⟩)))
    | v0 => exact .inr (.inr (.inr (.inr (.inl ⟨hb rfl, w, s.v1, s.src, s.dst, s.len, hn h⟩))))
    | v1 => exact .inr (.inr (.inr (.inr (.inl ⟨hb rfl, s.v0, w, s.src, s.dst, s.len, hn h⟩))))
    | src => exact .inr (.inr (.inr (.inr (.inl ⟨hb rfl, s.v0, s.v1, w, s.dst, s.len, hn h⟩))))
    | dst => exact .inr (.inr (.inr (.inr (.inl ⟨hb rfl, s.v0, s.v1, s.src, w, s.len, hn h⟩))))
    | len => exact .inr (.inr (.inr (.inr (.inl ⟨hb rfl, s.v0, s.v1, s.src, s.dst, w, hn h⟩))))
    | id => exact .inr (.inr (.inr (.inr (.inr (.inr (hn h))))))
    | version => exact .inr (.inr (.inr (.inr (.inr (.inr (hn h))))))
    | faddr => exact .inr (.inr (.inr (.inr (.inr (.inr (hn h))))))
    | rkf i => exact .inr (.inr (.inr (.inr (.inr (.inr (hn h))))))
    | rkpA r => exact .inr (.inr (.inr (.inr (.inr (.inr (hn h))))))
    | rkpB r => exact .inr (.inr (.inr (.inr (.inr (.inr (hn h))))))
    | reserved => exact .inr (.inr (.inr (.inr (.inr (.inr (hn h))))))

/-- What the port can answer: a read or a bus error changes only the model's own fields. -/
theorem registerAccess_next {t : Transaction} {s u : State} (h : registerAccess t s = .next u) :
    SameEngine s u ∨ (t.legal = true ∧ t.dir = .wr ∧ portWrite (regAt t.offset) t.wdata s = .next u) := by
  unfold registerAccess at h
  by_cases hl : t.legal = true
  · rw [if_pos hl] at h
    cases hd : t.dir with
    | rd =>
      rw [hd] at h
      obtain rfl := Host.Outcome.next.inj h
      refine .inl ?_
      unfold portRead
      split <;> rfl
    | wr => rw [hd] at h; exact .inr ⟨hl, rfl, h⟩
  · rw [if_neg hl] at h
    obtain rfl := Host.Outcome.next.inj h
    refine .inl ?_
    cases t.dir <;> rfl

/-! ### Which register an offset names -/

/-- The window of RKF (10_state.md R22). -/
theorem regAt_rkf_window {o : BitVec 12} (hl : 0x100 ≤ o.toNat) (hu : o.toNat < 0x200) : ∃ i, regAt o = .rkf i := by
  unfold regAt
  simp (disch := omega) only [if_neg, dif_neg, dif_pos]
  exact ⟨_, rfl⟩

/-- The window of RKP (10_state.md R22). -/
theorem regAt_rkp_window {o : BitVec 12} (hl : 0x200 ≤ o.toNat) (hu : o.toNat < 0x300) :
    (∃ r, regAt o = .rkpA r) ∨ ∃ r, regAt o = .rkpB r := by
  unfold regAt
  simp (disch := omega) only [if_neg, dif_neg, dif_pos]
  split
  · exact .inl ⟨_, rfl⟩
  · exact .inr ⟨_, rfl⟩

/-- The reserved offsets (10_state.md R47). -/
theorem regAt_reserved {o : BitVec 12} (h : o.toNat = 0x028 ∨ o.toNat = 0x02C ∨ (0x044 ≤ o.toNat ∧ o.toNat < 0x100) ∨
    0x300 ≤ o.toNat) : regAt o = .reserved := by
  unfold regAt
  simp (disch := omega) only [if_neg, dif_neg]

/-- An offset that is a multiple of 4 is that of the register it names, or reserved (10_state.md R22, R47). -/
theorem offset_regAt {o : BitVec 12} (h4 : o.toNat % 4 = 0) : regAt o = .reserved ∨ (regAt o).offset = o := by
  have hdec : ∀ k < 17, regAt (BitVec.ofNat 12 (4 * k)) = .reserved ∨
      (regAt (BitVec.ofNat 12 (4 * k))).offset = BitVec.ofNat 12 (4 * k) := by decide
  by_cases hlow : o.toNat < 0x044
  · have := hdec (o.toNat / 4) (by omega)
    rwa [show 4 * (o.toNat / 4) = o.toNat by omega, BitVec.ofNat_toNat, BitVec.setWidth_eq] at this
  · by_cases hf : 0x100 ≤ o.toNat ∧ o.toNat < 0x200
    · right
      unfold regAt
      simp (disch := omega) only [if_neg, dif_neg, dif_pos]
      apply BitVec.eq_of_toNat_eq
      simp only [Reg.offset, BitVec.toNat_ofNat]
      omega
    · by_cases hp : 0x200 ≤ o.toNat ∧ o.toNat < 0x300
      · right
        unfold regAt
        simp (disch := omega) only [if_neg, dif_neg, dif_pos]
        split <;> (apply BitVec.eq_of_toNat_eq; simp only [Reg.offset, BitVec.toNat_ofNat]; omega)
      · left
        unfold regAt
        simp (disch := omega) only [if_neg, dif_neg]

/-! ### The running command -/

/-- While BUSY = 0 no command is running. -/
theorem runs_of_idle {s : State} (h : s.status.busy = false) (kind : Instr → Bool) : s.runs kind = false := by
  simp [State.runs, State.running, h]

/-- While BUSY the running command is the one latched. -/
theorem runs_of_busy {s : State} {i : Instr} (h : s.status.busy = true) (hd : decode s.cmd = .ok i)
    (kind : Instr → Bool) : s.runs kind = kind i := by
  simp [State.runs, State.running, h, hd]

theorem bufferBusy_iff (s : State) :
    s.bufferBusy = true ↔ ∃ i, s.status.busy = true ∧ decode s.cmd = .ok i ∧ i.isBuffer = true := by
  simp only [State.bufferBusy, State.runs, State.running]
  cases s.status.busy <;> cases decode s.cmd <;> simp

/-- When a host access to memory is a protocol violation (20_memory.md R66). -/
theorem races_iff (s : State) (a : Nat) :
    s.races a = true ↔
      (∃ i, s.status.busy = true ∧ decode s.cmd = .ok i ∧ i.isBuffer = true) ∧ Touches s a := by
  rw [← bufferBusy_iff]
  simp [State.races, Touches, State.inSource, State.inDest]

/-- What the delivery of an event can answer, said once. -/
theorem deliver_cases {e : Event} {s t : State} (h : deliver e s = .next t) :
    SameEngine s t ∨
      (∃ w o, e = wr o w ∧ o.toNat % 4 = 0 ∧ portWrite (regAt o) w s = .next t) ∨
      (∃ a b, e = .memWrite a b ∧ s.races a.toNat = false ∧
        t = { s with mem := s.mem.write a.toNat b, response := .byteWritten }) ∨
      (e = .engine ∧ engineStep s = .next t) ∨
      (e = .reset ∧ (s.bufferBusy && s.coversSideEffects) = false ∧ t = afterReset s) := by
  cases e with
  | access tr =>
    rcases registerAccess_next (t := tr) h with h | ⟨hl, hd, h⟩
    · exact .inl h
    · obtain ⟨hs, h4⟩ := (legal_iff tr).mp hl
      refine .inr (.inl ⟨tr.wdata, tr.offset, ?_, h4, h⟩)
      rw [wr, ← hd, ← hs]
  | memRead a => exact .inl (by rw [(hostRead_next h).2]; rfl)
  | memWrite a b => exact .inr (.inr (.inl ⟨a, b, rfl, hostWrite_next h⟩))
  | engine => exact .inr (.inr (.inr (.inl ⟨rfl, h⟩)))
  | reset => exact .inr (.inr (.inr (.inr ⟨rfl, resetEvent_next h⟩)))

/-- What a step can answer, said once: the ENGINE's step, or what the first event does. -/
theorem step_cases {s t : State} (h : step s = .next t) :
    (∃ rest, (s.inbox = [] ∧ rest = [] ∨ s.inbox = .engine :: rest) ∧
        engineStep { s with inbox := rest } = .next t) ∨
      ∃ e rest, s.inbox = e :: rest ∧
        (SameEngine { s with inbox := rest } t ∨
          (∃ w o, e = wr o w ∧ o.toNat % 4 = 0 ∧ portWrite (regAt o) w { s with inbox := rest } = .next t) ∨
          (∃ a b, e = .memWrite a b ∧ ({ s with inbox := rest } : State).races a.toNat = false ∧
            t = { s with inbox := rest, mem := s.mem.write a.toNat b, response := .byteWritten }) ∨
          (e = .reset ∧ (({ s with inbox := rest } : State).bufferBusy && s.coversSideEffects) = false ∧
            t = afterReset { s with inbox := rest })) := by
  rcases step_next h with ⟨h0, hs⟩ | ⟨e, rest, h0, hs⟩
  · refine .inl ⟨[], .inl ⟨h0, rfl⟩, ?_⟩
    rwa [show ({ s with inbox := [] } : State) = s by rw [← h0]]
  · rcases deliver_cases hs with h1 | ⟨w, o, he, h4, h1⟩ | ⟨a, b, he, hr, h1⟩ | ⟨he, h1⟩ | ⟨he, h1⟩
    · exact .inr ⟨e, rest, h0, .inl h1⟩
    · exact .inr ⟨e, rest, h0, .inr (.inl ⟨w, o, he, h4, h1⟩)⟩
    · exact .inr ⟨e, rest, h0, .inr (.inr (.inl ⟨a, b, he, hr, h1⟩))⟩
    · exact .inl ⟨rest, .inr (by rw [h0, he]), h1⟩
    · exact .inr ⟨e, rest, h0, .inr (.inr (.inr ⟨he, h1⟩))⟩

end Sys2Proof.Machine
end

