-- ==== Sys2Proof/Laws/Run.lean ====
section
/-! SUPPORT. A run of several steps, one step at a time. -/

namespace Sys2Proof.Machine

/-- A run whose first step answers a next state goes on from it. -/
theorem run_after_next (M : Host.Core) {k : Nat} {u v : M.State} (h : M.step u = .next v) :
    M.run (k + 1) u = M.run k v := by
  rw [Host.Core.run.eq_def]; simp [h]

/-- The same for the machine of this model. -/
theorem core_run_after_next {k : Nat} {u v : State} (h : step u = .next v) :
    Sys2Proof.core.run (k + 1) u = Sys2Proof.core.run k v := run_after_next Sys2Proof.core h

end Sys2Proof.Machine
end

