-- ==== Sys2Proof/Tests/Slice0.lean ====
section
/-! SUPPORT. Tests of the model. Expected values are those of spec/95_test_vectors.md (the vector is named at each
test) or are written out from the rule named. The last part holds, for each obligation with hypotheses, a named witness
that meets them. -/

open Sys2Proof Sys2Proof.Machine Sys2Proof.Safety

namespace Sys2Proof.Tests

/-! ### Helpers -/

/-- The next state of an outcome. -/
def nextState : Host.Outcome State Fault Refusal → Option State
  | .next t => some t
  | _ => none

/-- V0, V1 and the STATUS word after a command. -/
def blockResult (i : Instr) (s : State) : Option (Word × Word × Word) :=
  (nextState (exec i s)).map fun t => (t.v0, t.v1, statusWord t.status)

/-- The `n` bytes of memory from `a` on. -/
def bytesAt (m : Memory) (a n : Nat) : List Byte := (List.range n).map fun k => m.read (a + k)

/-- The memory that holds the bytes from `a` on. -/
def memOf (a : Nat) (bs : List Byte) : Memory := (bs.zipIdx).foldl (fun m p => m.write (a + p.2) p.1) []

/-- The bytes of memory from `a` on and the STATUS word after a command. -/
def bufferResult (i : Instr) (a n : Nat) (s : State) : Option (List Byte × Word) :=
  (nextState (exec i s)).map fun t => (bytesAt t.mem a n, statusWord t.status)

/-- The state after some number of steps. -/
def steps : Nat → State → Option State
  | 0, s => some s
  | n + 1, s => (nextState (step s)).bind (steps n)

/-- The KAT key and K2 (95_test_vectors.md, section 1). -/
def katKey : Key := Vector.replicate 4 0xDEADBEEF
def k2 : Key := #v[0x01234567, 0x89ABCDEF, 0xFEDCBA98, 0x76543210]

/-- The state with a key, both schedules expanded from it, and a block. -/
def prepared (k : Key) (v0 v1 : Word) : State :=
  { State.reset with
    key := k, v0 := v0, v1 := v1
    rkf := flatSchedule k, rkfWritten := true, rkp := pairedSchedule k, rkpWritten := true
    status := { State.reset.status with fv := true, pv := true } }

/-- The prepared state with a buffer. -/
def buffer (k : Key) (src dst len : Word) (m : Memory) : State :=
  { prepared k 0 0 with src := src, dst := dst, len := len, mem := m }

/-- The state after reset with operands of a buffer. -/
def fresh (src dst len : Word) : State := { State.reset with src := src, dst := dst, len := len }

/-- The state after a CMD write of a word. -/
def submitted (w : Word) (s : State) : Option State := nextState (step { s with inbox := [wr 0x040 w] })

/-- The STATUS word, the V0, V1 and the irq after a CMD write of a word. -/
def submitResult (w : Word) (s : State) : Option (Word × Bool) :=
  (submitted w s).map fun t => (statusWord t.status, t.irq)

/-- A BUSY state that runs a command, with events still to come. -/
def busyWith (i : Instr) (rest : List Event) : State :=
  { prepared k2 1 2 with
    status := { (prepared k2 1 2).status with busy := true, fv := i != .expf, pv := i != .expp }
    cmd := encode i, src := 0x1000, dst := 0x2000, len := 16, inbox := rest }

/-- An idle state with events to come. -/
def idleWith (rest : List Event) : State := { prepared k2 1 2 with inbox := rest }

/-- 00 01 .. 1A, the plaintext of BUF-2. -/
def plain27 : List Byte := (List.range 27).map fun k => BitVec.ofNat 8 k

/-- The first 24 bytes of the ciphertext of BUF-2. -/
def cipher24 : List Byte :=
  [0xE4, 0x90, 0xD1, 0x58, 0x66, 0x0E, 0x3F, 0x4F, 0x65, 0xCD, 0xD3, 0x8E, 0x97, 0xA9, 0x0D, 0x15,
   0xFA, 0x74, 0x33, 0xF9, 0x2A, 0x81, 0xFA, 0xF2]

/-! ### Well-formedness (30_encoding.md R70, R75, R76): an ill-formed term for each check, refused -/

theorem test_reserved_bits_refused :
    ({ op := 5, ksrc := 0, order := 0, rsv := 1 } : CommandFields).reservedClear = false ∧
      ({ op := 5, ksrc := 0, order := 0, rsv := 1 } : CommandFields).legal = false := by decide

theorem test_op_zero_and_seven_refused :
    ({ op := 0, ksrc := 0, order := 0, rsv := 0 } : CommandFields).legal = false ∧
      ({ op := 7, ksrc := 0, order := 0, rsv := 0 } : CommandFields).opKnown = false := by decide

theorem test_key_source_three_refused :
    ({ op := 3, ksrc := 3, order := 0, rsv := 0 } : CommandFields).keySourceKnown = false ∧
      ({ op := 3, ksrc := 3, order := 0, rsv := 0 } : CommandFields).legal = false := by decide

theorem test_qualified_expand_refused :
    ({ op := 1, ksrc := 1, order := 0, rsv := 0 } : CommandFields).expandPlain = false ∧
      ({ op := 2, ksrc := 0, order := 1, rsv := 0 } : CommandFields).legal = false := by decide

theorem test_ordered_block_refused :
    ({ op := 4, ksrc := 0, order := 1, rsv := 0 } : CommandFields).blockUnordered = false ∧
      ({ op := 4, ksrc := 0, order := 1, rsv := 0 } : CommandFields).legal = false := by decide

theorem test_transaction_legality :
    ({ dir := .rd, offset := 0x008, size := 4, wdata := 0 } : Transaction).legal = true ∧
      ({ dir := .rd, offset := 0x008, size := 2, wdata := 0 } : Transaction).legal = false ∧
      ({ dir := .wr, offset := 0x009, size := 4, wdata := 0 } : Transaction).legal = false := by decide

/-! ### Decoding: each word written out bit by bit, RSV ORDER KSRC OP (30_encoding.md R71, R82) -/

theorem test_decode_expand :
    decode (0b0000000000000000000000000#25 ++ 0b0#1 ++ 0b00#2 ++ 0b0001#4) = .ok .expf ∧
      decode (0b0000000000000000000000000#25 ++ 0b0#1 ++ 0b00#2 ++ 0b0010#4) = .ok .expp := by decide

theorem test_decode_block :
    decode (0b0000000000000000000000000#25 ++ 0b0#1 ++ 0b00#2 ++ 0b0011#4) = .ok .encbRaw ∧
      decode (0b0000000000000000000000000#25 ++ 0b0#1 ++ 0b01#2 ++ 0b0011#4) = .ok .encbFlat ∧
      decode (0b0000000000000000000000000#25 ++ 0b0#1 ++ 0b10#2 ++ 0b0011#4) = .ok .encbPaired ∧
      decode (0b0000000000000000000000000#25 ++ 0b0#1 ++ 0b00#2 ++ 0b0100#4) = .ok .decbRaw ∧
      decode (0b0000000000000000000000000#25 ++ 0b0#1 ++ 0b01#2 ++ 0b0100#4) = .ok .decbFlat ∧
      decode (0b0000000000000000000000000#25 ++ 0b0#1 ++ 0b10#2 ++ 0b0100#4) = .ok .decbPaired := by decide

theorem test_decode_enc :
    decode (0b0000000000000000000000000#25 ++ 0b0#1 ++ 0b00#2 ++ 0b0101#4) = .ok .encRawBm ∧
      decode (0b0000000000000000000000000#25 ++ 0b0#1 ++ 0b01#2 ++ 0b0101#4) = .ok .encFlatBm ∧
      decode (0b0000000000000000000000000#25 ++ 0b0#1 ++ 0b10#2 ++ 0b0101#4) = .ok .encPairedBm ∧
      decode (0b0000000000000000000000000#25 ++ 0b1#1 ++ 0b00#2 ++ 0b0101#4) = .ok .encRawRm ∧
      decode (0b0000000000000000000000000#25 ++ 0b1#1 ++ 0b01#2 ++ 0b0101#4) = .ok .encFlatRm ∧
      decode (0b0000000000000000000000000#25 ++ 0b1#1 ++ 0b10#2 ++ 0b0101#4) = .ok .encPairedRm := by decide

theorem test_decode_dec :
    decode (0b0000000000000000000000000#25 ++ 0b0#1 ++ 0b00#2 ++ 0b0110#4) = .ok .decRawBm ∧
      decode (0b0000000000000000000000000#25 ++ 0b0#1 ++ 0b01#2 ++ 0b0110#4) = .ok .decFlatBm ∧
      decode (0b0000000000000000000000000#25 ++ 0b0#1 ++ 0b10#2 ++ 0b0110#4) = .ok .decPairedBm ∧
      decode (0b0000000000000000000000000#25 ++ 0b1#1 ++ 0b00#2 ++ 0b0110#4) = .ok .decRawRm ∧
      decode (0b0000000000000000000000000#25 ++ 0b1#1 ++ 0b01#2 ++ 0b0110#4) = .ok .decFlatRm ∧
      decode (0b0000000000000000000000000#25 ++ 0b1#1 ++ 0b10#2 ++ 0b0110#4) = .ok .decPairedRm := by decide

/-- Illegal words by cause (30_encoding.md R83; ERR-1a to ERR-1h). -/
theorem test_decode_names_the_cause :
    decode 0x00000000 = .error .badOp ∧ decode 0x00000007 = .error .badOp ∧
      decode 0x00000033 = .error .badKeySource ∧ decode 0x00000041 = .error .qualifiedExpand ∧
      decode 0x00000011 = .error .qualifiedExpand ∧ decode 0x00000043 = .error .orderedBlock ∧
      decode 0x00000085 = .error .reservedBits ∧ decode 0x80000005 = .error .reservedBits := by decide

theorem test_decode_bytes :
    decodeBytes [0x65, 0x00, 0x00, 0x00] = .ok .encPairedRm ∧ decodeBytes [0x65, 0x00] = .error .wrongLength ∧
      decodeTableWord 32 0x16 = some .decFlatBm ∧ decodeTableWord 32 0x100000005 = some .encRawBm := by decide

/-- A whole step on a placed word, first after reset (the host's form of asking). -/
theorem test_placed_word_runs_first :
    (nextState (step (State.reset.withFetchWord 32 0x00000001))).map (fun t => statusWord t.status) =
      some 0x00000006 := by decide

/-! ### Mnemonics (30_encoding.md R79) -/

theorem test_mnemonics_read_back : ∀ i ∈ allInstrs, parseMnemonic (mnemonic i) = some i := by decide +kernel

theorem test_short_spellings :
    parseMnemonic "ENC.RM" = some .encRawRm ∧ parseMnemonic "DECB" = some .decbRaw ∧
      parseMnemonic "ENC.FLAT" = some .encFlatBm ∧ parseMnemonic "ENCB.BM" = none := by decide

/-! ### EXPF, EXPP (95_test_vectors.md KS-1, KS-3; REG-7) -/

theorem test_expf :
    (nextState (exec .expf { State.reset with key := katKey })).map
        (fun t => (t.rkf[0], t.rkf[1], t.rkf[63], statusWord t.status)) =
      some (0xDEADBEEF, 0x7CE538A8, 0xA59CF60F, 0x00000006) := by decide

theorem test_expf_k2 :
    (nextState (exec .expf { State.reset with key := k2 })).map (fun t => (t.rkf[2], t.rkf[15], t.rkf[38], t.rkf[39])) =
      some (0x27E347A8, 0x7B679BB7, 0x34723ACB, 0x5D78C7DB) := by rfl

theorem test_expp_k2 :
    (nextState (exec .expp { State.reset with key := k2 })).map
        (fun t => (t.rkp[0], t.rkp[19], statusWord t.status)) =
      some ({ a := 0x01234567, b := 0x148BABC9 }, { a := 0x34723ACB, b := 0x5D78C7DB }, 0x0000000A) := by decide

/-! ### ENCB, DECB (BT-1 to BT-4; ERR-2, ERR-3) -/

theorem test_encb_forms : ∀ i ∈ ([.encbRaw, .encbFlat, .encbPaired] : List Instr),
    blockResult i (prepared katKey 0xDEADBEEF 0xDEADBEEF) = some (0xFAF28CB5, 0x0940C0E0, 0x0000000E) ∧
      blockResult i (prepared k2 0x01234567 0x89ABCDEF) = some (0xDD5989EC, 0xCE6D9490, 0x0000000E) := by decide

theorem test_decb_forms : ∀ i ∈ ([.decbRaw, .decbFlat, .decbPaired] : List Instr),
    blockResult i (prepared katKey 0xFAF28CB5 0x0940C0E0) = some (0xDEADBEEF, 0xDEADBEEF, 0x0000000E) ∧
      blockResult i (prepared (Vector.replicate 4 0) 0 0) = some (0x2B6E57D5, 0x667C2111, 0x0000000E) := by decide +kernel

theorem test_encb_without_schedule :
    blockResult .encbFlat State.reset = some (0, 0, 0x00000202) ∧
      blockResult .decbPaired State.reset = some (0, 0, 0x00000202) ∧
      blockResult .encbRaw State.reset = some (0xDEE9D4D8, 0xF7131ED9, 0x00000002) := by decide

/-! ### ENC, DEC (BUF-1 to BUF-5) -/

/-- The bytes of the KAT plaintext and of its ciphertext (KAT-1). -/
def katPlain : List Byte := [0xEF, 0xBE, 0xAD, 0xDE, 0xEF, 0xBE, 0xAD, 0xDE]
def katCipher : List Byte := [0xB5, 0x8C, 0xF2, 0xFA, 0xE0, 0xC0, 0x40, 0x09]

theorem test_enc_one_block :
    ∀ i ∈ ([.encRawBm, .encFlatBm, .encPairedBm, .encRawRm, .encFlatRm, .encPairedRm] : List Instr),
      bufferResult i 0x1000 8 (buffer katKey 0x1000 0x1000 8 (memOf 0x1000 katPlain)) =
        some (katCipher, 0x0000000E) := by decide +kernel

theorem test_dec_one_block :
    ∀ i ∈ ([.decRawBm, .decFlatBm, .decPairedBm, .decRawRm, .decFlatRm, .decPairedRm] : List Instr),
      bufferResult i 0x1000 8 (buffer katKey 0x1000 0x1000 8 (memOf 0x1000 katCipher)) =
        some (katPlain, 0x0000000E) := by decide +kernel

theorem test_enc_out_of_place_keeps_the_tail :
    bufferResult .encRawBm 0x2000 27
        (buffer k2 0x1000 0x2000 27
          ((((memOf 0x1000 plain27).write 0x2018 0xEE).write 0x2019 0xEE).write 0x201A 0xEE)) =
      some (cipher24 ++ [0xEE, 0xEE, 0xEE], 0x0000000E) := by decide +kernel

theorem test_dec_in_place_keeps_the_tail :
    bufferResult .decRawRm 0x1000 27
        (buffer k2 0x1000 0x1000 0x1B (memOf 0x1000 (cipher24 ++ [0x18, 0x19, 0x1A]))) =
      some (plain27, 0x0000000E) := by decide +kernel

theorem test_enc_equal_blocks :
    bufferResult .encRawBm 0x1000 16 (buffer katKey 0x1000 0x1000 16 (memOf 0x1000 (katPlain ++ katPlain))) =
      some (katCipher ++ katCipher, 0x0000000E) := by decide +kernel

theorem test_zero_blocks :
    bufferResult .encPairedRm 0x1000 7 (buffer k2 0x1000 0x1000 7 (memOf 0x1000 plain27)) =
        some (plain27.take 7, 0x0000000E) ∧
      bufferResult .decPairedRm 0 1 (buffer k2 0xFFFFFFFF 0 0 []) = some ([0], 0x0000000E) ∧
      bufferResult .encPairedRm 0 1 (fresh 0x1000 0x1000 0) = some ([0], 0x00000202) ∧
      bufferResult .encRawBm 0 1 (fresh 0x1000 0x1004 4) = some ([0], 0x00000002) := by decide +kernel

/-- BUF-6: what round-major order leaves in block 0 after its first sweep. -/
theorem test_first_sweep :
    encRound { v0 := 0x03020100, v1 := 0x07060504 } { a := 0x01234567, b := 0x148BABC9 } =
      { v0 := 0x797F210B, v1 := 0x2038A60E } := by decide

/-! ### Rejections and the abort (ERR-1 to ERR-7) -/

theorem test_illegal_words :
    ([0x00000000, 0x00000007, 0x00000033, 0x00000041, 0x00000085, 0x00000011, 0x00000043, 0x80000005,
        0x00000017] : List Word).map (fun w => submitResult w State.reset) =
      List.replicate 9 (some (0x00000102, false)) := by decide

theorem test_nosched :
    submitResult 0x00000013 State.reset = some (0x00000202, false) ∧
      submitResult 0x00000024 State.reset = some (0x00000202, false) ∧
      submitResult 0x00000015 (fresh 0x1000 0x1008 16) = some (0x00000202, false) ∧
      submitResult 0x00000026 (fresh 0xFFFFFFF9 0xFFFFFFF9 8) = some (0x00000202, false) := by decide

theorem test_range :
    submitResult 0x00000005 (fresh 0xFFFFFFF9 0xFFFFFFF9 8) = some (0x00000302, false) ∧
      submitResult 0x00000046 (fresh 0x1000 0xFFFFFFF0 24) = some (0x00000302, false) ∧
      submitResult 0x00000006 (fresh 0xFFFFFFF0 0xFFFFFFF8 16) = some (0x00000302, false) ∧
      submitResult 0x00000005 (fresh 0xFFFFFFF8 0xFFFFFFF8 8) = some (0x00000001, false) := by decide

theorem test_overlap :
    submitResult 0x00000005 (fresh 0x1000 0x1004 16) = some (0x00000402, false) := by decide

/-- The state of ERR-7. -/
def err7 : State :=
  { fresh 0x1000 0x2000 24 with
    key := k2
    mem := memOf 0x1000 plain27
    platform := { refused := [{ base := 0x2008, size := 8 }], sideEffects := [] } }

theorem test_bus_abort :
    (nextState (exec .encRawBm err7)).map (fun t => (statusWord t.status, t.faddr)) =
      some (0x00000502, 0x00002008) := by rfl

/-! ### The port (REG-1 to REG-11) -/

/-- What a read of an offset gets. -/
def readAt (o : BitVec 12) (s : State) : Option Response :=
  (nextState (step { s with inbox := [rd o] })).map (·.response)

/-- The STATUS word after a write. -/
def statusAfterWrite (o : BitVec 12) (w : Word) (s : State) : Option Word :=
  (nextState (step { s with inbox := [wr o w] })).map fun t => statusWord t.status

theorem test_reset_reads :
    readAt 0x000 State.reset = some (.data 0x58544541) ∧ readAt 0x004 State.reset = some (.data 0x00000001) ∧
      ([0x008, 0x00C, 0x010, 0x014, 0x018, 0x01C, 0x020, 0x024, 0x030, 0x034, 0x038, 0x03C, 0x040,
        0x028, 0x044, 0x0FC, 0x300, 0xFFC] : List (BitVec 12)).map (fun o => readAt o State.reset) =
        List.replicate 18 (some (.data 0)) := by decide

/-- 10_state.md R40: the reads of the unwritten stores are draws, a new one for each read. -/
theorem test_reset_store_reads_are_draws :
    readAt 0x100 State.reset = some (.data (Config.freeWord 0)) ∧
      readAt 0x2FC { State.reset with draws := 7 } = some (.data (Config.freeWord 7)) := ⟨rfl, rfl⟩

/-- REG-3. -/
theorem test_key_write_clears_validity :
    statusAfterWrite 0x018 0xFEDCBA98
      { prepared k2 0 0 with status := { (prepared k2 0 0).status with done := true } } = some 0x00000002 := by decide

/-- REG-4, REG-5. -/
theorem test_status_write :
    statusAfterWrite 0x008 0x00000002
        { State.reset with status := { State.reset.status with done := true, ovr := true, err := .overlap } } =
          some 0x00000410 ∧
      statusAfterWrite 0x008 0xFFFFFFFF
        { State.reset with status := { State.reset.status with done := true, ovr := true, err := .overlap } } =
          some 0x00000400 := by decide

/-- REG-6: the three writes arrive while EXPF is BUSY; the other interleaving, the ENGINE's step first, accepts them. -/
theorem test_busy_writes :
    (steps 5 { State.reset with
        inbox := [wr 0x040 1, wr 0x010 1, wr 0x038 8, wr 0x040 3, .engine] }).map
          (fun t => (statusWord t.status, t.key[0], t.len, t.rkf[0])) = some (0x00000016, 0, 0, 0) ∧
      (steps 4 { State.reset with
        inbox := [wr 0x040 1, .engine, wr 0x010 1, wr 0x038 8] }).map
          (fun t => (statusWord t.status, t.key[0], t.len, t.rkf[0])) = some (0x00000002, 1, 8, 0) := by decide

/-- REG-8. -/
theorem test_ignored_writes :
    ([0x100, 0x000, 0x03C, 0x204] : List (BitVec 12)).map
        (fun o => (nextState (step (idleWith [wr o 0x12345678])) == some { idleWith [] with response := .written })) =
      [true, true, true, true] := by decide

/-- REG-9. -/
theorem test_illegal_access :
    nextState (step (idleWith [.access { dir := .wr, offset := 0x010, size := 2, wdata := 9 }])) =
        some { idleWith [] with response := .busErrorWrite } ∧
      nextState (step (idleWith [.access { dir := .wr, offset := 0x009, size := 4, wdata := 9 }])) =
        some { idleWith [] with response := .busErrorWrite } := by decide

/-- REG-10. -/
theorem test_irq :
    ({ State.reset with donie := true, status := { State.reset.status with done := true } } : State).irq = true ∧
      (nextState (step { State.reset with
        donie := true, status := { State.reset.status with done := true }, inbox := [wr 0x00C 0] })).map
          (fun t => (t.irq, t.status.done)) = some (false, true) := by decide

/-- REG-11. -/
theorem test_busy_reads :
    readAt 0x020 (busyWith .encbRaw []) = some (.data (Config.freeWord 0)) ∧
      readAt 0x010 (busyWith .encbRaw []) = some (.data 0x01234567) ∧
      readAt 0x020 (busyWith .encRawBm []) = some (.data 1) := ⟨rfl, rfl, rfl⟩

/-- The window stands at ENGINE_BASE, wherever that is (10_state.md R21). -/
theorem test_platform_address : (Reg.key 3).platformAddress = Config.engineBase.toNat + 0x01C := rfl

/-! ### Host memory accesses and reset (20_memory.md R66; 70_reset_and_hazards.md R230, R231) -/

theorem test_race :
    step (busyWith .encRawBm [.memRead 0x100F]) = .fault .race ∧
      step (busyWith .decFlatRm [.memWrite 0x2000 1]) = .fault .race := ⟨rfl, rfl⟩

theorem test_no_race :
    (nextState (step (busyWith .encRawBm [.memRead 0x1010]))).map (·.response) = some (.byte 0) ∧
      (nextState (step (busyWith .encbRaw [.memRead 0x1000]))).map (·.response) = some (.byte 0) := by decide

theorem test_reset_of_a_busy_engine :
    (nextState (step (busyWith .encbRaw [.reset]))).map (fun t => (t == { State.reset with inbox := [] })) =
      some true := by decide

/-! ### A host program (95_test_vectors.md P1, lines 9 to 13) -/

theorem test_program_lines :
    (steps 6 { prepared katKey 0xDEADBEEF 0xDEADBEEF with
        inbox := HostLine.expand 1 (.run .encbRaw) ++ HostLine.expand 0 (.check .none) ++
          HostLine.expand 0 (.rd .v0) }).map (·.response) = some (.data 0xFAF28CB5) ∧
      checkHolds .none 0x00000002 = true ∧ checkHolds .none 0x00000202 = false ∧
      checkHolds .noSched 0x00000202 = true := by decide

/-! ### Witnesses: for each obligation with hypotheses, a concrete case that meets them -/

/-- Every condition of a buffer command, out of place: the source ends where the destination begins. -/
def ready : State := buffer k2 0x1000 0x1010 16 [(0x1000, 0x21), (0x1007, 0xEE), (0x1010, 0x07)]

/-- The same in place, with the last byte of the last block at 2^32 - 1. -/
def readyInPlace : State := buffer k2 0xFFFFFFF0 0xFFFFFFF0 16 []

theorem none_refused (s : State) (h : s.platform = { refused := [], sideEffects := [] }) :
    OrdinaryMemory s ∧ MemoryAnswers s := by
  constructor <;> intro a _ g hg <;> rw [h] at hg <;> cases hg

theorem witness_ready : ready.mem.wf = true ∧ BufferFits ready ∧ OrdinaryMemory ready ∧ MemoryAnswers ready ∧
    SchedulesValid ready ∧ (∀ ks, ScheduleReady ks ready) ∧ 0 < ready.blocks :=
  ⟨rfl, .inr ⟨by decide, by decide, .inr (.inl (by decide))⟩, (none_refused ready rfl).1,
    (none_refused ready rfl).2, ⟨fun _ => ⟨rfl, rfl⟩, fun _ => ⟨rfl, rfl⟩⟩,
    fun ks => by cases ks <;> trivial, by decide⟩

theorem witness_ready_in_place : readyInPlace.mem.wf = true ∧ readyInPlace.src = readyInPlace.dst ∧
    BufferFits readyInPlace ∧ OrdinaryMemory readyInPlace ∧ MemoryAnswers readyInPlace ∧
    SchedulesValid readyInPlace ∧ (∀ ks, ScheduleReady ks readyInPlace) ∧ 0 < readyInPlace.blocks :=
  ⟨rfl, rfl, .inr ⟨by decide, by decide, .inl rfl⟩, (none_refused readyInPlace rfl).1,
    (none_refused readyInPlace rfl).2, ⟨fun _ => ⟨rfl, rfl⟩, fun _ => ⟨rfl, rfl⟩⟩,
    fun ks => by cases ks <;> trivial, by decide⟩

theorem witness_DecodeEncodeAgree : Instr.wellFormed .encFlatRm = true ∧ decode 0x00000055 = .ok .encFlatRm := by decide

theorem witness_StepRunsTheLatchedCommand :
    ((busyWith .expf []).status.busy = true ∧ decode (busyWith .expf []).cmd = .ok .expf ∧
        (busyWith .expf []).inbox = []) ∧
      (busyWith .decPairedRm [.engine]).status.busy = true ∧
      decode (busyWith .decPairedRm [.engine]).cmd = .ok .decPairedRm ∧
      (busyWith .decPairedRm [.engine]).inbox = .engine :: [] := by decide

theorem witness_AcceptThenRunIsTheWholeCommand : rejection .encFlatRm ready = none := by decide

theorem witness_RunLineCompletesTheCommand :
    ∃ s t, s.status.busy = false ∧ rejection .encbRaw s = none ∧ exec .encbRaw s = .next t ∧
      s.inbox = HostLine.expand 2 (.run .encbRaw) :=
  ⟨idleWith (HostLine.expand 2 (.run .encbRaw)), _, rfl, rfl, rfl, rfl⟩

/-- A CMD write that each clause of the check order is about, at the boundary of its range: the illegal word; FLAT with
FV = 0; SRC + 8n = 2^32 + 1; the ranges with one byte in common; and the last byte at 2^32 - 1. -/
theorem witness_CmdWriteIsCheckedInOrder :
    (decode 0x00000041 = .error .qualifiedExpand ∧ (idleWith [wr 0x040 0x41]).status.busy = false) ∧
      ¬ ScheduleReady (Instr.keySource .encFlatBm) State.reset ∧
      (Instr.isBuffer .encRawBm = true ∧ 0 < (fresh 0xFFFFFFF9 0xFFFFFFF9 8).blocks ∧
        2 ^ 32 < (fresh 0xFFFFFFF9 0xFFFFFFF9 8).src.toNat + 8 * (fresh 0xFFFFFFF9 0xFFFFFFF9 8).blocks) ∧
      (0 < (fresh 0x1000 0x100F 16).blocks ∧ (0x1000 : Word) ≠ 0x100F ∧
        (0x100F : Word).toNat < (0x1000 : Word).toNat + 8 * (fresh 0x1000 0x100F 16).blocks ∧
        (0x1000 : Word).toNat < (0x100F : Word).toNat + 8 * (fresh 0x1000 0x100F 16).blocks) ∧
      BufferFits (fresh 0xFFFFFFF8 0xFFFFFFF8 8) ∧ OrdinaryMemory (fresh 0xFFFFFFF8 0xFFFFFFF8 8) :=
  ⟨by decide, nofun, by decide, by decide, .inr ⟨by decide, by decide, .inl rfl⟩, fun _ _ _ => nofun⟩

theorem witness_CommandStopsOnAFailedCheck :
    (¬ ScheduleReady .flat State.reset ∧ ¬ ScheduleReady .paired State.reset) ∧
      (ScheduleReady .raw (fresh 0x1000 0xFFFFFFF1 16) ∧ 0 < (fresh 0x1000 0xFFFFFFF1 16).blocks ∧
        2 ^ 32 < (fresh 0x1000 0xFFFFFFF1 16).dst.toNat + 8 * (fresh 0x1000 0xFFFFFFF1 16).blocks) ∧
      (ScheduleReady .raw (fresh 0x100F 0x1000 16) ∧ 0 < (fresh 0x100F 0x1000 16).blocks ∧
        (fresh 0x100F 0x1000 16).src.toNat < (fresh 0x100F 0x1000 16).dst.toNat + 8 * (fresh 0x100F 0x1000 16).blocks) :=
  ⟨⟨nofun, nofun⟩, ⟨trivial, by decide, by decide⟩, ⟨trivial, by decide, by decide⟩⟩

theorem witness_AdjacentSubKeysShareTheSum :
    (∀ j : Fin 4, katKey[j.val] = katKey[0]) ∧
      oddPick k2 (sumAt (1 + 1)) = evenPick k2 (sumAt (1 + 1)) := by decide

/-- A chain of blocks linked by the rounds. -/
def chain (n : Nat) : Block :=
  ((List.finRange 32).take n).foldl (fun b r => encRound b (rawSubKeys k2 r)) { v0 := 1, v1 := 2 }

theorem witness_BlockTransformIsThirtyTwoRounds :
    (∀ r : Fin 32, chain (r.val + 1) = encRound (chain r.val) (rawSubKeys k2 r)) ∧
      ∀ r : Fin 32, chain r.val = decRound (chain (r.val + 1)) (rawSubKeys k2 r) := by decide +kernel

theorem witness_block_forms : ∃ e ∈ blockForms, ∃ d ∈ blockForms, e.2.1 = .encrypt ∧ d.2.1 = .decrypt ∧
    ScheduleReady e.2.2 ready ∧ ScheduleReady d.2.2 ready :=
  ⟨(.encbFlat, .encrypt, .flat), by decide, (.decbPaired, .decrypt, .paired), by decide, rfl, rfl, rfl, rfl⟩

theorem witness_buffer_forms : ∃ e ∈ bufferForms, ∃ d ∈ bufferForms, e.2.1 = .encrypt ∧ d.2.1 = .decrypt ∧
    ScheduleReady e.2.2 readyInPlace ∧ ScheduleReady d.2.2 readyInPlace :=
  ⟨(.encFlatRm, .encrypt, .flat), by decide, (.decPairedBm, .decrypt, .paired), by decide, rfl, rfl, rfl, rfl⟩

theorem witness_KeyMaterialFormsAgree : SchedulesValid ready ∧ ready.status.fv = true ∧ ready.status.pv = true :=
  ⟨witness_ready.2.2.2.2.1, rfl, rfl⟩

theorem witness_BlocksLieLittleEndian : Memory.wf [(0x0FFF, 0x21), (0x1007, 0xEE)] = true ∧ Memory.wf [] = true := by
  decide

theorem witness_ZeroBlocksCompleteUntouched :
    (fresh 0xFFFFFFFF 0 7).len.toNat < 8 ∧ ScheduleReady .raw (fresh 0xFFFFFFFF 0 7) ∧
      ¬ ScheduleReady .flat (fresh 0xFFFFFFFF 0 7) := ⟨by decide, trivial, nofun⟩

/-- Two equal blocks that an ENC with an equal outcome transforms. -/
theorem witness_EqualBlocksGiveEqualBlocks :
    ∃ t, exec .encRawBm readyInPlace = .next t ∧ t.status.err = .none ∧ 0 < readyInPlace.blocks ∧
      1 < readyInPlace.blocks ∧ loadBlock readyInPlace.mem (readyInPlace.src.toNat + 8 * 0) =
        loadBlock readyInPlace.mem (readyInPlace.src.toNat + 8 * 1) :=
  ⟨_, rfl, rfl, by decide, by decide, rfl⟩

theorem witness_RefusedBlockAborts : err7.mem.wf = true ∧ ScheduleReady .raw err7 ∧ BufferFits err7 ∧
    OrdinaryMemory err7 ∧ RefusedBlock err7 0x2008 :=
  ⟨rfl, trivial, .inr ⟨by decide, by decide, .inr (.inl (by decide))⟩,
    (by intro a _ g hg; cases hg),
    ⟨⟨1, by decide, .inr (by decide)⟩, 0, by decide, fun h => h _ (List.mem_singleton.mpr rfl) (by decide)⟩⟩

/-- A buffer whose last byte has side effects on reads. -/
def withDevice : State :=
  { fresh 0x1000 0x1000 16 with platform := { refused := [], sideEffects := [{ base := 0x100F, size := 1 }] } }

theorem witness_SideEffectMemoryIsRefused : ScheduleReady .raw withDevice ∧ BufferFits withDevice ∧
    Touches withDevice 0x100F ∧ ¬ NoneHolds withDevice.platform.sideEffects 0x100F ∧
    withDevice.status.busy = false ∧ Instr.isBuffer .encRawBm = true ∧
    decode (encode .encRawBm) = .ok .encRawBm :=
  ⟨trivial, .inr ⟨by decide, by decide, .inl rfl⟩, .inl (by decide),
    fun h => h _ (List.mem_singleton.mpr rfl) (by decide), rfl, rfl, rfl⟩

/-- 20_memory.md R58: the CMD write is refused where one byte of the buffer has side effects, and accepted where that
byte is the first after it; with n = 0 the ranges are empty (42_loop_strategy.md R171). -/
theorem test_side_effects_at_the_cmd_write :
    step { withDevice with inbox := [wr 0x040 0x00000005] } = .refused .sideEffectBuffer ∧
      submitResult 0x00000046 { withDevice with src := 0x0FFF, dst := 0x0FFF } = some (0x00000001, false) ∧
      submitResult 0x00000005 { withDevice with src := 0x100F, len := 7 } = some (0x00000001, false) :=
  ⟨rfl, by decide, by decide⟩

/-- The reset of an engine that is BUSY over such memory. -/
theorem test_side_effects_at_reset :
    step { withDevice with
      status := { withDevice.status with busy := true }, cmd := encode .decRawRm, inbox := [.reset] } =
        .refused .sideEffectBuffer := rfl

theorem witness_frames : (∃ t, exec .expf ready = .next t) ∧ (∃ t, exec .expp ready = .next t) ∧
    (∃ t, exec .encbFlat ready = .next t) ∧ (∃ t, exec .decRawRm ready = .next t) ∧
    ∃ t, exec .encRawBm err7 = .next t ∧ t.status.err = .bus :=
  ⟨⟨_, rfl⟩, ⟨_, rfl⟩, ⟨_, rfl⟩, ⟨_, rfl⟩, ⟨_, rfl, rfl⟩⟩

/-- The port's statements: the first event of the inbox is the access, BUSY is as the statement says, and an offset lies
at the ends of its range. -/
theorem witness_port_idle : ∀ w o, (idleWith [wr o w]).inbox = wr o w :: [] ∧
    (idleWith [rd o]).inbox = rd o :: [] ∧ (idleWith [wr o w]).status.busy = false ∧
    (idleWith [rd o]).status.busy = false ∧ (idleWith [rd o]).rkfWritten = true ∧
    (idleWith [rd o]).rkpWritten = true :=
  fun _ _ => ⟨rfl, rfl, rfl, rfl, rfl, rfl⟩

theorem witness_port_busy : ∀ i w o, (busyWith i [wr o w]).inbox = wr o w :: [] ∧
    (busyWith i [rd o]).inbox = rd o :: [] ∧ (busyWith i [wr o w]).status.busy = true :=
  fun _ _ _ => ⟨rfl, rfl, rfl⟩

theorem witness_ReadOnlyWritesAreIgnored : ∀ n ∈ ([0x100, 0x1FC, 0x200, 0x2FC] : List Nat),
    0x100 ≤ (BitVec.ofNat 12 n).toNat ∧ (BitVec.ofNat 12 n).toNat < 0x300 ∧ (BitVec.ofNat 12 n).toNat % 4 = 0 := by
  decide

theorem witness_ReservedOffsetsReadZero : ∀ n ∈ ([0x028, 0x02C, 0x044, 0x0FC, 0x300, 0xFFC] : List Nat),
    (BitVec.ofNat 12 n).toNat = n ∧ n % 4 = 0 ∧
      (n = 0x028 ∨ n = 0x02C ∨ (0x044 ≤ n ∧ n ≤ 0x0FC) ∨ (0x300 ≤ n ∧ n ≤ 0xFFC)) := by decide

theorem witness_UnwrittenStoresReadDraws : State.reset.rkfWritten = false ∧ State.reset.rkpWritten = false ∧
    (0x100 ≤ (0x1FC : BitVec 12).toNat ∧ (0x1FC : BitVec 12).toNat < 0x200) ∧
    0x200 ≤ (0x2FC : BitVec 12).toNat ∧ (0x2FC : BitVec 12).toNat < 0x300 := by decide

theorem witness_BusyReads :
    (decode (busyWith .encbRaw []).cmd = .ok .encbRaw ∧ Instr.isBlock .encbRaw = true) ∧
      (decode (busyWith .expf []).cmd = .ok .expf ∧ (0x1FC : BitVec 12).toNat < 0x200) ∧
      (decode (busyWith .expp []).cmd = .ok .expp ∧ (0x200 : BitVec 12).toNat % 4 = 0) ∧
      (decode (busyWith .decRawRm []).cmd = .ok .decRawRm ∧ Instr.isBlock .decRawRm = false) ∧
      ((busyWith .expp []).rkfWritten = true ∧ (0x1FC : BitVec 12).toNat = 0x100 + 4 * (63 : Fin 64).val) ∧
      ((busyWith .expf []).rkpWritten = true ∧ (0x2FC : BitVec 12).toNat = 0x204 + 8 * (31 : Fin 32).val) ∧
      (0x01C : BitVec 12).toNat = 0x010 + 4 * (3 : Fin 4).val := by decide

theorem witness_IllegalAccessIsABusError :
    ({ dir := .rd, offset := 0x008, size := 1, wdata := 0 } : Transaction).size ≠ 4 ∧
      ({ dir := .wr, offset := 0x00A, size := 4, wdata := 0 } : Transaction).offset.toNat % 4 ≠ 0 := by decide

/-- The last byte of S races; the byte after it does not. -/
theorem witness_HostMemoryAccess :
    ((∃ i, (busyWith .encRawBm []).status.busy = true ∧ decode (busyWith .encRawBm []).cmd = .ok i ∧
        i.isBuffer = true) ∧ Touches (busyWith .encRawBm []) (0x100F : Word).toNat) ∧
      ¬ Touches (busyWith .encRawBm []) (0x1010 : Word).toNat ∧
      NoneHolds (busyWith .encRawBm []).platform.sideEffects 0x1010 ∧ (busyWith .encRawBm []).mem.wf = true :=
  ⟨⟨⟨.encRawBm, rfl, rfl, rfl⟩, .inl (by decide)⟩,
    fun h => by rcases h with h | h <;> exact absurd h (by decide), nofun, rfl⟩

theorem witness_ResetEventRestoresReset :
    ((busyWith .encRawBm [.reset]).inbox = .reset :: [] ∧ (busyWith .encRawBm [.reset]).mem.wf = true ∧
        ∃ i, (busyWith .encRawBm [.reset]).status.busy = true ∧
          decode (busyWith .encRawBm [.reset]).cmd = .ok i ∧ i.isBuffer = true ∧
          OrdinaryMemory (busyWith .encRawBm [.reset])) ∧
      (idleWith [.reset]).inbox = .reset :: [] ∧ (idleWith [.reset]).status.busy = false :=
  ⟨⟨rfl, rfl, .encRawBm, rfl, rfl, rfl, fun _ _ _ => nofun⟩, rfl, rfl⟩

theorem witness_IdleEngineWaits : RunEnded (idleWith []) := ⟨rfl, rfl⟩

theorem witness_BusyIsSetOnlyByAnAcceptedCmdWrite :
    ∃ s t, step s = .next t ∧ s.status.busy = false ∧ t.status.busy = true :=
  ⟨idleWith [wr 0x040 0x00000003], _, rfl, rfl, rfl⟩

theorem witness_ValidityFlagsAreSetOnlyByExpansion :
    (∃ s t, step s = .next t ∧ s.status.fv = false ∧ t.status.fv = true) ∧
      ∃ s t, step s = .next t ∧ s.status.pv = false ∧ t.status.pv = true :=
  ⟨⟨busyWith .expf [], _, rfl, rfl, rfl⟩, busyWith .expp [], _, rfl, rfl, rfl⟩

/-- The state of ERR-7 after the command is accepted. -/
def err7Running : State :=
  { err7 with status := { err7.status with busy := true }, cmd := encode .encRawBm }

theorem witness_FaddrChangesOnlyOnBusOrReset : ∃ t, step err7Running = .next t ∧ t.faddr ≠ err7Running.faddr :=
  ⟨abortBus (accept .encRawBm err7Running), rfl, by decide⟩

theorem witness_KeyChangesOnlyByHostWrite : ∃ s t, step s = .next t ∧ t.key ≠ s.key :=
  ⟨idleWith [wr 0x01C 7], _, rfl, by decide⟩

/-- A state that meets the three invariants while a buffer command is running, and one while idle. -/
theorem witness_invariants :
    (SchedulesValid (busyWith .encRawBm [.engine]) ∧ MemoryCanonical (busyWith .encRawBm [.engine]) ∧
        RunningLegal (busyWith .encRawBm [.engine]) ∧ ∃ t, step (busyWith .encRawBm [.engine]) = .next t) ∧
      SchedulesValid (idleWith [wr 0x010 5]) ∧ MemoryCanonical (idleWith [wr 0x010 5]) ∧
      RunningLegal (idleWith [wr 0x010 5]) ∧ ∃ t, step (idleWith [wr 0x010 5]) = .next t :=
  ⟨⟨⟨fun _ => ⟨rfl, rfl⟩, fun _ => ⟨rfl, rfl⟩⟩, ⟨rfl, rfl⟩, ⟨.encRawBm, rfl, rfl, fun _ _ _ _ => nofun, rfl, rfl, nofun, nofun⟩, _, rfl⟩,
    ⟨fun _ => ⟨rfl, rfl⟩, fun _ => ⟨rfl, rfl⟩⟩, ⟨rfl, rfl⟩, rfl, _, rfl⟩

end Sys2Proof.Tests
end

section
/-! SUPPORT. The register port through one lemma for a read that answers a value, one for a read that answers a draw and
one for a write that is taken, with what `readReg` answers for each register that can answer a draw (10_state.md R22,
R40, R41, R44, R45). -/

namespace Sys2Proof.Machine

open Sys2Proof.Safety

/-! ### The offsets of the registers (10_state.md R22) -/

/-- Every register stands at a multiple of 4. -/
theorem offset_toNat_mod_four (r : Reg) : r.offset.toNat % 4 = 0 := by
  cases r <;> simp only [Reg.offset, BitVec.toNat_ofNat, BitVec.reduceToNat] <;> omega

/-- The offset of a key word. -/
theorem offset_key_toNat (j : Fin 4) : (Reg.key j).offset.toNat = 0x010 + 4 * j.val := by
  simp only [Reg.offset, BitVec.toNat_ofNat]; omega

/-- The offset of a word of RKF. -/
theorem offset_rkf_toNat (i : Fin 64) : (Reg.rkf i).offset.toNat = 0x100 + 4 * i.val := by
  simp only [Reg.offset, BitVec.toNat_ofNat]; omega

/-- The offset of the even sub-key of a pair of RKP. -/
theorem offset_rkpA_toNat (r : Fin 32) : (Reg.rkpA r).offset.toNat = 0x200 + 8 * r.val := by
  simp only [Reg.offset, BitVec.toNat_ofNat]; omega

/-- The offset of the odd sub-key of a pair of RKP. -/
theorem offset_rkpB_toNat (r : Fin 32) : (Reg.rkpB r).offset.toNat = 0x204 + 8 * r.val := by
  simp only [Reg.offset, BitVec.toNat_ofNat]; omega

/-! ### A step that takes a legal access -/

/-- What a register reads does not depend on the events still to come. -/
@[simp] theorem readReg_inbox (r : Reg) (s : State) (rest : List Event) :
    readReg r { s with inbox := rest } = readReg r s := by
  cases r <;> rfl

/-- A step that reads the register `r`, which answers a value. -/
theorem step_rd_held {s : State} {r : Reg} {offset : BitVec 12} {w : Word} {rest : List Event}
    (h : s.inbox = rd offset :: rest) (h4 : offset.toNat % 4 = 0) (hr : regAt offset = r)
    (hw : readReg r s = some w) : step s = .next { s with inbox := rest, response := .data w } := by
  rw [step_rd h h4, hr, portRead_value ((readReg_inbox r s rest).trans hw)]

/-- A step that reads the register `r`, which answers a draw. -/
theorem step_rd_draw {s : State} {r : Reg} {offset : BitVec 12} {rest : List Event}
    (h : s.inbox = rd offset :: rest) (h4 : offset.toNat % 4 = 0) (hr : regAt offset = r)
    (hn : readReg r s = none) :
    step s = .next { s with inbox := rest, response := .data (Config.freeWord s.draws), draws := s.draws + 1 } := by
  rw [step_rd h h4, hr, portRead_draw ((readReg_inbox r s rest).trans hn)]

/-- A step that writes the register `r`, which is no operand or whose engine is idle: the write has its effect. -/
theorem step_wr_taken {s : State} {r : Reg} {offset : BitVec 12} {w : Word} {rest : List Event}
    (h : s.inbox = wr offset w :: rest) (h4 : offset.toNat % 4 = 0) (hr : regAt offset = r)
    (ht : r.isOperand = false ∨ s.status.busy = false) :
    step s = writeReg r w { s with inbox := rest, response := .written } := by
  rw [step_wr h h4, hr, portWrite_taken (s := { s with inbox := rest }) ht]

/-- `step_rd_held` at the register's own offset. -/
theorem step_rd_offset {s : State} {r : Reg} {w : Word} {rest : List Event}
    (h : s.inbox = rd r.offset :: rest) (hw : readReg r s = some w) :
    step s = .next { s with inbox := rest, response := .data w } :=
  step_rd_held h (offset_toNat_mod_four r) (regAt_offset r) hw

/-- `step_wr_taken` at the register's own offset. -/
theorem step_wr_offset {s : State} {r : Reg} {w : Word} {rest : List Event}
    (h : s.inbox = wr r.offset w :: rest) (ht : r.isOperand = false ∨ s.status.busy = false) :
    step s = writeReg r w { s with inbox := rest, response := .written } :=
  step_wr_taken h (offset_toNat_mod_four r) (regAt_offset r) ht

/-! ### What the registers that can answer a draw read -/

/-- V0 reads its value unless ENCB or DECB is running. -/
theorem readReg_v0_held {s : State} (h : s.runs Instr.isBlock = false) : readReg .v0 s = some s.v0 := by
  simp [readReg, h]

/-- V1 reads its value unless ENCB or DECB is running. -/
theorem readReg_v1_held {s : State} (h : s.runs Instr.isBlock = false) : readReg .v1 s = some s.v1 := by
  simp [readReg, h]

/-- V0 and V1 read draws while ENCB or DECB is running. -/
theorem readReg_v_draw {s : State} (h : s.runs Instr.isBlock = true) :
    readReg .v0 s = none ∧ readReg .v1 s = none := by
  simp [readReg, h]

/-- A word of RKF reads its value once written, unless EXPF is running. -/
theorem readReg_rkf_held {s : State} (hr : s.runs (· == .expf) = false) (hw : s.rkfWritten = true) (i : Fin 64) :
    readReg (.rkf i) s = some s.rkf[i.val] := by
  simp [readReg, hr, hw]

/-- A word of RKF reads a draw while EXPF is running or nothing has been written. -/
theorem readReg_rkf_draw {s : State} (h : s.runs (· == .expf) = true ∨ s.rkfWritten = false) (i : Fin 64) :
    readReg (.rkf i) s = none := by
  rcases h with h | h <;> simp [readReg, h]

/-- A pair of RKP reads its value once written, unless EXPP is running. -/
theorem readReg_rkp_held {s : State} (hr : s.runs (· == .expp) = false) (hw : s.rkpWritten = true) (r : Fin 32) :
    readReg (.rkpA r) s = some s.rkp[r.val].a ∧ readReg (.rkpB r) s = some s.rkp[r.val].b := by
  simp [readReg, hr, hw]

/-- A pair of RKP reads draws while EXPP is running or nothing has been written. -/
theorem readReg_rkp_draw {s : State} (h : s.runs (· == .expp) = true ∨ s.rkpWritten = false) (r : Fin 32) :
    readReg (.rkpA r) s = none ∧ readReg (.rkpB r) s = none := by
  rcases h with h | h <;> simp [readReg, h]

/-- A read of the window of RKF is a draw while EXPF is running or nothing has been written (10_state.md R40, R44). -/
theorem step_rd_rkf_window_draw {s : State} {offset : BitVec 12} {rest : List Event}
    (h : s.inbox = rd offset :: rest) (h4 : offset.toNat % 4 = 0) (hl : 0x100 ≤ offset.toNat)
    (hu : offset.toNat < 0x200) (hd : s.runs (· == .expf) = true ∨ s.rkfWritten = false) :
    step s = .next { s with inbox := rest, response := .data (Config.freeWord s.draws), draws := s.draws + 1 } := by
  obtain ⟨i, hi⟩ := regAt_rkf_window hl hu
  exact step_rd_draw h h4 hi (readReg_rkf_draw hd i)

/-- A read of the window of RKP is a draw while EXPP is running or nothing has been written (10_state.md R41, R44). -/
theorem step_rd_rkp_window_draw {s : State} {offset : BitVec 12} {rest : List Event}
    (h : s.inbox = rd offset :: rest) (h4 : offset.toNat % 4 = 0) (hl : 0x200 ≤ offset.toNat)
    (hu : offset.toNat < 0x300) (hd : s.runs (· == .expp) = true ∨ s.rkpWritten = false) :
    step s = .next { s with inbox := rest, response := .data (Config.freeWord s.draws), draws := s.draws + 1 } := by
  rcases regAt_rkp_window hl hu with ⟨r, hr⟩ | ⟨r, hr⟩
  · exact step_rd_draw h h4 hr (readReg_rkp_draw hd r).1
  · exact step_rd_draw h h4 hr (readReg_rkp_draw hd r).2

/-! ### The STATUS word (10_state.md R25, R32) -/

/-- Which field each bit of the STATUS word shows. -/
theorem statusWord_getLsbD (st : Status) (k : Nat) :
    (statusWord st).getLsbD k =
      if k = 0 then st.busy else if k = 1 then st.done else if k = 2 then st.fv else if k = 3 then st.pv
      else if k = 4 then st.ovr else if k < 8 then false else st.err.bits.getLsbD (k - 8) := by
  unfold statusWord
  -- The first rewrite shows `simp` the widths of the parts, which the type `Word` hides.
  rw [BitVec.getLsbD_append]
  simp only [BitVec.getLsbD_append]
  rcases lt_or_ge k 8 with hk | hk
  · interval_cases k <;> simp
  · obtain ⟨j, rfl⟩ := Nat.exists_eq_add_of_le hk
    rcases lt_or_ge j 4 with hj | hj
    · simp (disch := omega) only [if_neg, if_pos]
      rfl
    · simp (disch := omega) only [if_neg, BitVec.getLsbD_of_ge]
      exact BitVec.getLsbD_zero

/-- ERR stands in bits 11:8 of the STATUS word. -/
theorem statusWord_err (st : Status) : (statusWord st).extractLsb' 8 4 = st.err.bits := by
  ext k hk
  rw [BitVec.getElem_extractLsb', statusWord_getLsbD]
  simp (disch := omega) only [if_neg, Nat.add_sub_cancel_left, BitVec.getLsbD_eq_getElem]

/-- Bits 7:5 of the STATUS word are 0. -/
theorem statusWord_low_reserved (st : Status) : (statusWord st).extractLsb' 5 3 = 0 := by
  ext k hk
  rw [BitVec.getElem_extractLsb', statusWord_getLsbD]
  simp (disch := omega) only [if_neg, if_pos, BitVec.ofNat_eq_ofNat, BitVec.getElem_zero]

/-- Bits 31:12 of the STATUS word are 0. -/
theorem statusWord_high_reserved (st : Status) : (statusWord st).extractLsb' 12 20 = 0 := by
  ext k hk
  rw [BitVec.getElem_extractLsb', statusWord_getLsbD]
  simp (disch := omega) only [if_neg, BitVec.getLsbD_of_ge, BitVec.ofNat_eq_ofNat, BitVec.getElem_zero]

end Sys2Proof.Machine
end

section
/-! PROOFS. Statements of 10_state.md: the reserved offsets, the reads while BUSY, the constants, the STATUS word and
the state after reset. -/

namespace Sys2Proof.Proofs

open Sys2Proof.Machine Sys2Proof.Safety

/-- Settles O43: each of these offsets names `Reg.reserved`, which reads 0 and ignores a write. -/
theorem reservedOffsetsReadZero : Obligations.ReservedOffsetsReadZero := by
  intro s offset rest h4 hrange
  have hreg : regAt offset = .reserved := regAt_reserved (by omega)
  exact ⟨fun h => step_rd_held h h4 hreg rfl, fun w h => step_wr_taken h h4 hreg (.inl rfl)⟩

/-- Settles O46: the offset names its register, and `readReg` answers a draw exactly where the running command updates
that register. -/
theorem busyReads : Obligations.BusyReads := by
  intro s i offset rest hb hd h4 h
  have hruns (kind : Instr → Bool) : s.runs kind = kind i := runs_of_busy hb hd kind
  have held {r : Reg} {w : Word} (ho : offset = r.offset) (hw : readReg r s = some w) :
      step s = .next { s with inbox := rest, response := .data w } := step_rd_offset (ho ▸ h) hw
  refine ⟨?draws, (held (r := .id) · rfl), (held (r := .version) · rfl), (held (r := .status) · rfl),
    (held (r := .inten) · rfl), fun j ho => held (BitVec.eq_of_toNat_eq (ho.trans (offset_key_toNat j).symm)) rfl,
    fun hi ho => held (r := .v0) ho (readReg_v0_held ((hruns _).trans hi)),
    fun hi ho => held (r := .v1) ho (readReg_v1_held ((hruns _).trans hi)),
    (held (r := .src) · rfl), (held (r := .dst) · rfl), (held (r := .len) · rfl), (held (r := .faddr) · rfl),
    (held (r := .cmd) · rfl), ?rkf, ?rkp⟩
  case draws =>
    rintro (⟨hi, rfl | rfl⟩ | ⟨rfl, hl, hu⟩ | ⟨rfl, hl, hu⟩)
    · exact step_rd_draw h h4 (regAt_offset .v0) (readReg_v_draw ((hruns _).trans hi)).1
    · exact step_rd_draw h h4 (regAt_offset .v1) (readReg_v_draw ((hruns _).trans hi)).2
    · exact step_rd_rkf_window_draw h h4 hl hu (.inl (hruns _))
    · exact step_rd_rkp_window_draw h h4 hl hu (.inl (hruns _))
  case rkf =>
    intro hi hw j ho
    have hrun : s.runs (· == .expf) = false := (hruns _).trans (beq_false_of_ne hi)
    exact held (BitVec.eq_of_toNat_eq (ho.trans (offset_rkf_toNat j).symm)) (readReg_rkf_held hrun hw j)
  case rkp =>
    intro hi hw r
    have hrun : s.runs (· == .expp) = false := (hruns _).trans (beq_false_of_ne hi)
    obtain ⟨hA, hB⟩ := readReg_rkp_held hrun hw r
    exact ⟨fun ho => held (BitVec.eq_of_toNat_eq (ho.trans (offset_rkpA_toNat r).symm)) hA,
      fun ho => held (BitVec.eq_of_toNat_eq (ho.trans (offset_rkpB_toNat r).symm)) hB⟩

/-- Settles O35: both registers read their constants and ignore a write. -/
theorem idAndVersionAreConstant : Obligations.IdAndVersionAreConstant := by
  intro s rest
  exact ⟨(step_rd_offset (r := .id) · rfl), (step_rd_offset (r := .version) · rfl),
    fun w => ⟨(step_wr_offset (r := .id) · (.inl rfl)), (step_wr_offset (r := .version) · (.inl rfl))⟩⟩

/-- Settles O36, field by field of the STATUS word. -/
theorem statusWordLayout : Obligations.StatusWordLayout := by
  refine ⟨⟨rfl, rfl, rfl, rfl, rfl, rfl⟩, fun st => ?_⟩
  have hbit (k : Nat) := statusWord_getLsbD st k
  exact ⟨hbit 0, hbit 1, hbit 2, hbit 3, hbit 4, statusWord_err st, statusWord_low_reserved st,
    statusWord_high_reserved st⟩

/-- Settles O50: the registers hold 0, and the stores are unwritten, so that their words read draws. -/
theorem resetState : Obligations.ResetState :=
  ⟨rfl, rfl, fun _ => Vector.getElem_replicate _, rfl, rfl, rfl, rfl, rfl, rfl, rfl,
    readReg_rkf_draw (.inr rfl), readReg_rkp_draw (.inr rfl), rfl, rfl⟩

end Sys2Proof.Proofs
end

section
/-! SUPPORT. The bytes of a block (20_memory.md R52), and which accesses are illegal (20_memory.md R55). -/

namespace Sys2Proof.Machine

/-- The eight bytes from an address on are two 32-bit words: the first four bytes are the low one. -/
theorem memRead8_eq_append (m : Memory) (a : Nat) :
    memRead8 m a =
      (m.read (a + 7) ++ m.read (a + 6) ++ m.read (a + 5) ++ m.read (a + 4) : BitVec 32) ++
        (m.read (a + 3) ++ m.read (a + 2) ++ m.read (a + 1) ++ m.read a : BitVec 32) := by
  simp only [memRead8, BitVec.append_assoc, BitVec.cast_eq]

/-- A block load, byte by byte. -/
theorem loadBlock_eq_bytes (m : Memory) (a : Nat) :
    loadBlock m a =
      { v0 := m.read (a + 3) ++ m.read (a + 2) ++ m.read (a + 1) ++ m.read a
        v1 := m.read (a + 7) ++ m.read (a + 6) ++ m.read (a + 5) ++ m.read (a + 4) } := by
  rw [loadBlock, memRead8_eq_append, BitVec.extractLsb'_append_eq_right, BitVec.extractLsb'_append_eq_left]

/-- The first four bytes that a block store leaves are those of v0. -/
theorem read_storeBlock_v0 {m : Memory} (h : m.wf = true) (a : Nat) (b : Block) {k : Nat} (hk : k < 4) :
    (storeBlock m a b).read (a + k) = b.v0.extractLsb' (8 * k) 8 := by
  rw [(storeBlock_spec h a b).2, if_pos (by omega), Nat.add_sub_cancel_left]
  exact BitVec.extractLsb'_append_eq_of_add_le (by omega)

/-- The last four bytes that a block store leaves are those of v1. -/
theorem read_storeBlock_v1 {m : Memory} (h : m.wf = true) (a : Nat) (b : Block) {k : Nat} (hk : k < 4) :
    (storeBlock m a b).read (a + 4 + k) = b.v1.extractLsb' (8 * k) 8 := by
  rw [(storeBlock_spec h a b).2, if_pos (by omega), show 8 * (a + 4 + k - a) = 32 + 8 * k by omega,
    BitVec.extractLsb'_append_eq_of_le (by omega), Nat.add_sub_cancel_left]

/-- A byte outside the block is as it was before a block store. -/
theorem read_storeBlock_other {m : Memory} (h : m.wf = true) (a : Nat) (b : Block) {c : Nat}
    (hc : c < a ∨ a + 8 ≤ c) : (storeBlock m a b).read c = m.read c := by
  rw [(storeBlock_spec h a b).2, if_neg (by omega)]

/-- An access of another size or at another offset is not legal. -/
theorem legal_eq_false {t : Transaction} (h : t.size ≠ 4 ∨ t.offset.toNat % 4 ≠ 0) : t.legal = false := by
  rw [← Bool.not_eq_true, legal_iff]
  omega

end Sys2Proof.Machine
end

section
/-! PROOFS. Statements of 20_memory.md: how a block lies in memory, and the illegal access. -/

namespace Sys2Proof.Proofs

open Sys2Proof.Machine Sys2Proof.Safety

/-- Settles O23, from what a block load reads and what a block store leaves at each address. -/
theorem blocksLieLittleEndian : Obligations.BlocksLieLittleEndian := fun m a b h =>
  ⟨loadBlock_eq_bytes m a, fun _ hk => ⟨read_storeBlock_v0 h a b hk, read_storeBlock_v1 h a b hk⟩,
    fun _ hc => read_storeBlock_other h a b hc, loadBlock_storeBlock_same h a b⟩

/-- Settles O47: the access is not legal, so the step is the bus error of its direction. -/
theorem illegalAccessIsABusError : Obligations.IllegalAccessIsABusError := by
  intro s t rest h hin
  rw [step_illegal hin (legal_eq_false h)]
  cases t.dir with
  | rd => exact ⟨_, rfl, rfl, rfl, rfl⟩
  | wr => exact ⟨_, rfl, rfl, rfl, rfl⟩

end Sys2Proof.Proofs
end

section
/-! SUPPORT. The key schedule (40_key_schedule.md R101, R102): what FlatSchedule has still to emit after some rounds, and
the key words picked by bits of the sum, in plain arithmetic. -/

namespace Sys2Proof.Machine

open Sys2Proof.Safety

/-- The sum advances by DELTA (40_key_schedule.md R101). -/
theorem sumAt_succ (r : Nat) : sumAt (r + 1) = sumAt r + delta := by
  rw [sumAt, Nat.succ_mul, BitVec.ofNat_add]
  rfl

/-- The key word that sum[1:0] picks, in plain arithmetic. -/
theorem evenKeyWord_eq_evenPick (k : Key) (sum : Word) : evenKeyWord k sum = evenPick k sum := by
  simp only [evenKeyWord, evenPick, keyWord, BitVec.extractLsb'_toNat, Nat.shiftRight_zero, Nat.reducePow]

/-- The key word that sum[12:11] picks, in plain arithmetic. -/
theorem oddKeyWord_eq_oddPick (k : Key) (sum : Word) : oddKeyWord k sum = oddPick k sum := by
  simp only [oddKeyWord, oddPick, keyWord, BitVec.extractLsb'_toNat, BitVec.toNat_ushiftRight, Nat.reducePow]

/-- The two words that the round at the sum s_i emits (40_key_schedule.md R102). -/
theorem scheduleFrom_sumAt (k : Key) (rounds i : Nat) :
    scheduleFrom k (rounds + 1) (sumAt i) =
      (sumAt i + evenPick k (sumAt i)) :: (sumAt (i + 1) + oddPick k (sumAt (i + 1))) ::
        scheduleFrom k rounds (sumAt (i + 1)) := by
  rw [scheduleFrom, ← sumAt_succ, evenKeyWord_eq_evenPick, oddKeyWord_eq_oddPick]

/-- After `r` rounds the schedule goes on from the sum `r` steps later. -/
theorem drop_scheduleFrom_sumAt (k : Key) (i r rounds : Nat) :
    (scheduleFrom k (r + rounds) (sumAt i)).drop (2 * r) = scheduleFrom k rounds (sumAt (i + r)) := by
  induction r generalizing i with
  | zero => simp
  | succ r ih =>
    rw [Nat.succ_add, scheduleFrom_sumAt, Nat.mul_succ, List.drop_succ_cons, List.drop_succ_cons, ih,
      Nat.succ_add_eq_add_succ]

/-- The closed form of the two words of round `r` (40_key_schedule.md R102). -/
theorem flatSchedule_closed_form (k : Key) (r : Fin 32) :
    (flatSchedule k)[2 * r.val] = sumAt r.val + evenPick k (sumAt r.val) ∧
      (flatSchedule k)[2 * r.val + 1] = sumAt (r.val + 1) + oddPick k (sumAt (r.val + 1)) := by
  have hlen : (scheduleFrom k 32 0).length = 64 := scheduleFrom_length k 32 0
  have hdrop : (scheduleFrom k 32 0).drop (2 * r.val) = scheduleFrom k (31 - r.val + 1) (sumAt r.val) := by
    have h := drop_scheduleFrom_sumAt k 0 r.val (31 - r.val + 1)
    rwa [show r.val + (31 - r.val + 1) = 32 by omega, Nat.zero_add] at h
  rw [List.drop_eq_getElem_cons (by omega), List.drop_eq_getElem_cons (by omega), scheduleFrom_sumAt,
    List.cons.injEq, List.cons.injEq] at hdrop
  obtain ⟨ha, hb, -⟩ := hdrop
  exact ⟨ha, hb⟩

/-- Every pick from a key of four equal words is that word. -/
theorem oddPick_eq_evenPick_of_equal_words {k : Key} (h : ∀ j : Fin 4, k[j.val] = k[0]) (sum : Word) :
    oddPick k sum = evenPick k sum :=
  (h ⟨_, Nat.mod_lt _ (by decide)⟩).trans (h ⟨_, Nat.mod_lt _ (by decide)⟩).symm

end Sys2Proof.Machine
end

section
/-! PROOFS. Statements of 40_key_schedule.md about FlatSchedule: its closed form, and the adjacency of the sub-keys. -/

namespace Sys2Proof.Proofs

open Sys2Proof.Machine Sys2Proof.Safety

/-- Settles O10: what is left of the schedule after `r` rounds begins with the two words of round `r`. -/
theorem flatScheduleClosedForm : Obligations.FlatScheduleClosedForm :=
  ⟨flatSchedule_closed_form, rfl⟩

/-- Settles O11 from the closed forms of b_r and a_{r+1}, whose sums are the same. -/
theorem adjacentSubKeysShareTheSum : Obligations.AdjacentSubKeysShareTheSum := by
  intro k
  have hclosed (r : Fin 31) :
      (flatSchedule k)[2 * r.val + 1] = sumAt (r.val + 1) + oddPick k (sumAt (r.val + 1)) ∧
        (flatSchedule k)[2 * (r.val + 1)] = sumAt (r.val + 1) + evenPick k (sumAt (r.val + 1)) :=
    ⟨(flatSchedule_closed_form k r.castSucc).2, (flatSchedule_closed_form k r.succ).1⟩
  have hadjacent (r : Fin 31) (hpick : oddPick k (sumAt (r.val + 1)) = evenPick k (sumAt (r.val + 1))) :
      (flatSchedule k)[2 * r.val + 1] = (flatSchedule k)[2 * (r.val + 1)] := by
    rw [(hclosed r).1, (hclosed r).2, hpick]
  exact ⟨hclosed, hadjacent, fun hequal r => hadjacent r (oddPick_eq_evenPick_of_equal_words hequal _)⟩

end Sys2Proof.Proofs
end

section
/-! SUPPORT. The rounds (41_block_transform.md R121-R126): each undoes the other, and what a fold of one operation per
round computes; the fused generation of the raw sub-keys (R137). -/

namespace Sys2Proof.Machine

open Sys2Proof.Safety

/-! ### One round -/

/-- F in plain arithmetic (41_block_transform.md R120): a left shift that discards the high bits, and a logical right
shift. -/
theorem mixF_toNat (v : Word) :
    (mixF v).toNat = (((v.toNat * 16 % 2 ^ 32) ^^^ (v.toNat / 32)) + v.toNat) % 2 ^ 32 := by
  rw [mixF, BitVec.toNat_add, BitVec.toNat_xor, BitVec.toNat_shiftLeft, BitVec.toNat_ushiftRight,
    Nat.shiftLeft_eq, Nat.shiftRight_eq_div_pow]

/-- DecRound undoes EncRound: each half-update subtracts what EncRound added (41_block_transform.md R123). -/
@[simp] theorem decRound_encRound (b : Block) (k : SubKeys) : decRound (encRound b k) k = b := by
  simp only [encRound, decRound, BitVec.add_sub_cancel]

/-- EncRound undoes DecRound: each half-update adds what DecRound subtracted (41_block_transform.md R123). -/
@[simp] theorem encRound_decRound (b : Block) (k : SubKeys) : encRound (decRound b k) k = b := by
  simp only [encRound, decRound, BitVec.sub_add_cancel]

/-! ### One operation per round -/

/-- A fold over all rounds, first to last, of an operation that takes each point of a chain to the next. -/
theorem foldl_finRange_of_chain {α : Type} {n : Nat} {f : α → Fin n → α} {c : Nat → α}
    (h : ∀ r : Fin n, c (r.val + 1) = f (c r.val) r) : (List.finRange n).foldl f (c 0) = c n := by
  induction n generalizing c with
  | zero => rfl
  | succ n ih =>
    have hfirst : f (c 0) 0 = c 1 := (h 0).symm
    rw [List.finRange_succ, List.foldl_cons, List.foldl_map, hfirst]
    exact ih (c := fun i => c (i + 1)) fun r => h r.succ

/-- A fold over all rounds, last to first, of an operation that takes each point of a chain to the one before it. -/
theorem foldl_reverse_finRange_of_chain {α : Type} {n : Nat} {f : α → Fin n → α} {c : Nat → α}
    (h : ∀ r : Fin n, c r.val = f (c (r.val + 1)) r) : (List.finRange n).reverse.foldl f (c n) = c 0 := by
  rw [List.foldl_reverse]
  induction n generalizing c with
  | zero => rfl
  | succ n ih =>
    rw [List.finRange_succ, List.foldr_cons, List.foldr_map,
      ih (f := fun b r => f b r.succ) (c := fun i => c (i + 1)) fun r => h r.succ]
    exact (h 0).symm

/-- If `g` undoes `f` for each round, a fold of `g` over the rounds in reverse undoes a fold of `f` over them. -/
theorem foldl_reverse_foldl {α ρ : Type} {f g : α → ρ → α} (h : ∀ b r, g (f b r) r = b) (l : List ρ) (b : α) :
    l.reverse.foldl g (l.foldl f b) = b := by
  induction l generalizing b with
  | nil => rfl
  | cons r l ih =>
    rw [List.foldl_cons, List.reverse_cons, List.foldl_append, ih]
    exact h b r

/-- EncryptBlock is a fold of EncRound over rounds 0 to 31 (41_block_transform.md R124). -/
theorem encryptBlock_eq_foldl (sk : Fin 32 → SubKeys) (b : Block) :
    encryptBlock sk b = (List.finRange 32).foldl (fun b r => encRound b (sk r)) b := by
  rw [encryptBlock, transformBlock, roundsOf, roundStep]

/-- DecryptBlock is a fold of DecRound over rounds 31 down to 0 (41_block_transform.md R125). -/
theorem decryptBlock_eq_foldl (sk : Fin 32 → SubKeys) (b : Block) :
    decryptBlock sk b = (List.finRange 32).reverse.foldl (fun b r => decRound b (sk r)) b := by
  rw [decryptBlock, transformBlock, roundsOf, roundStep]

/-! ### The fused generation of the raw sub-keys -/

/-- The sub-keys of the raw key at a round that is any number (41_block_transform.md R127). -/
def rawPair (k : Key) (r : Nat) : SubKeys :=
  { a := sumAt r + evenKeyWord k (sumAt r), b := sumAt (r + 1) + oddKeyWord k (sumAt (r + 1)) }

/-- At a round of the engine they are SK_RAW. -/
theorem rawSubKeys_eq_rawPair (k : Key) (r : Fin 32) : rawSubKeys k r = rawPair k r.val := rfl

/-- SK_RAW of all rounds, in order. -/
theorem map_rawSubKeys_finRange (k : Key) :
    (List.finRange 32).map (rawSubKeys k) = (List.range 32).map (rawPair k) := by
  rw [← List.map_coe_finRange_eq_range, List.map_map]
  exact List.map_congr_left fun r _ => rawSubKeys_eq_rawPair k r

/-- The sum that runs up from s_i yields the sub-keys of the rounds from `i` on. -/
theorem fusedUp_sumAt (k : Key) (n i : Nat) : fusedUp k n (sumAt i) = (List.range' i n).map (rawPair k) := by
  induction n generalizing i with
  | zero => rfl
  | succ n ih =>
    rw [fusedUp, ← sumAt_succ, ih, List.range'_succ, List.map_cons]
    rfl

/-- The sum that runs down from s_n yields the sub-keys of the rounds below `n`, the last first. -/
theorem fusedDown_sumAt (k : Key) (n : Nat) :
    fusedDown k n (sumAt n) = (List.range n).reverse.map (rawPair k) := by
  induction n with
  | zero => rfl
  | succ n ih =>
    have hsum : sumAt (n + 1) - delta = sumAt n := by rw [sumAt_succ, BitVec.add_sub_cancel]
    rw [fusedDown, hsum, ih, List.range_succ, List.reverse_append]
    rfl

end Sys2Proof.Machine
end

section
/-! PROOFS. Statements of 41_block_transform.md about the block transform: its rounds, their inverses, and the fused
generation of the raw sub-keys. -/

namespace Sys2Proof.Proofs

open Sys2Proof.Machine Sys2Proof.Safety

/-- Settles O17: each transform is a fold of its round over the rounds in its order. -/
theorem blockTransformIsThirtyTwoRounds : Obligations.BlockTransformIsThirtyTwoRounds :=
  fun sk _ =>
    ⟨fun h => (encryptBlock_eq_foldl sk _).trans (foldl_finRange_of_chain h),
      fun h => (decryptBlock_eq_foldl sk _).trans (foldl_reverse_finRange_of_chain h)⟩

/-- Settles O18: the rounds undo each other, and each transform takes them in the reverse of the other's order. -/
theorem blockTransformsAreInverse : Obligations.BlockTransformsAreInverse := by
  intro sk b
  have hdec := foldl_reverse_foldl (f := fun b r => encRound b (sk r)) (g := fun b r => decRound b (sk r))
    (fun b r => decRound_encRound b (sk r)) (List.finRange 32) b
  have henc := foldl_reverse_foldl (f := fun b r => decRound b (sk r)) (g := fun b r => encRound b (sk r))
    (fun b r => encRound_decRound b (sk r)) (List.finRange 32).reverse b
  rw [List.reverse_reverse] at henc
  simp only [encryptBlock_eq_foldl, decryptBlock_eq_foldl]
  exact ⟨hdec, henc⟩

/-- Settles O12: the sum runs up from s_0 = 0, and down from s_32 = 0xC6EF3720. -/
theorem fusedSumYieldsTheRawSubKeys : Obligations.FusedSumYieldsTheRawSubKeys := by
  intro s
  have hraw : s.subKeys .raw = rawSubKeys s.key := rfl
  have hup : fusedUp s.key 32 0 = (List.range 32).map (rawPair s.key) := fusedUp_sumAt s.key 32 0
  have hdown : fusedDown s.key 32 0xC6EF3720 = (List.range 32).reverse.map (rawPair s.key) :=
    fusedDown_sumAt s.key 32
  rw [hraw, hup, hdown, roundsOf, roundsOf, List.map_reverse, List.map_reverse, map_rawSubKeys_finRange]
  exact ⟨rfl, rfl⟩

/-- Settles O15: `mixF_toNat`, and the corner values by evaluation. -/
theorem mixingFunctionValues : Obligations.MixingFunctionValues :=
  ⟨mixF_toNat, rfl, rfl, rfl, rfl⟩

/-- Settles O16: the equations are the definitions of the rounds, and the two rounds undo each other. -/
theorem roundsAreInverse : Obligations.RoundsAreInverse := fun b k =>
  ⟨⟨rfl, rfl⟩, ⟨rfl, rfl⟩, decRound_encRound b k, encRound_decRound b k⟩

end Sys2Proof.Proofs
end

section
/-! SUPPORT. ENC and DEC over ordinary memory that answers (42_loop_strategy.md R157, R174): the state each leaves, the
sub-keys it reads under the schedule invariant, and the memory after an encryption and a decryption in place. -/

namespace Sys2Proof.Machine

open Sys2Proof.Safety

variable {s : State}

/-! ### The sub-keys under the schedule invariant (41_block_transform.md R128) -/

/-- The two words of round `r` in FlatSchedule are SK_RAW(r). -/
theorem flatSchedule_pair (k : Key) (r : Fin 32) :
    ({ a := (flatSchedule k)[2 * r.val], b := (flatSchedule k)[2 * r.val + 1] } : SubKeys) = rawSubKeys k r := by
  obtain ⟨ha, hb⟩ := flatSchedule_closed_form k r
  rw [ha, hb, rawSubKeys_eq_rawPair, rawPair, evenKeyWord_eq_evenPick, oddKeyWord_eq_oddPick]

/-- Pair `r` of PairedSchedule is SK_RAW(r). -/
theorem pairedSchedule_pair (k : Key) (r : Fin 32) : (pairedSchedule k)[r.val] = rawSubKeys k r := by
  rw [pairedSchedule, Vector.getElem_ofFn]
  exact flatSchedule_pair k r

/-- A key source that is ready gives the sub-keys of the raw key. -/
theorem subKeys_eq_rawSubKeys {ks : KeySource} (hv : SchedulesValid s) (h : ScheduleReady ks s) :
    s.subKeys ks = rawSubKeys s.key := by
  funext r
  cases ks with
  | raw => rfl
  | flat =>
    obtain ⟨-, hflat⟩ := hv.1 h
    simp only [State.subKeys, hflat]
    exact flatSchedule_pair s.key r
  | paired =>
    obtain ⟨-, hpaired⟩ := hv.2 h
    simp only [State.subKeys, hpaired]
    exact pairedSchedule_pair s.key r

/-! ### One command -/

/-- The state after a buffer command without error: memory is transformed, STATUS says so, and the hidden command word
is discarded (42_loop_strategy.md R157; 10_state.md R42, R49). -/
def bufferDone (o : LoopOrder) (d : Direction) (ks : KeySource) (s : State) : State :=
  { s with
    mem := transformBuffer o d (s.subKeys ks) s.src.toNat s.dst.toNat s.blocks s.mem
    status := completed s.status
    cmd := 0 }

/-- `exec` of an ENC or DEC that passes its checks over ordinary memory that refuses no access. -/
theorem exec_bufferForm_done {f : Instr × Direction × KeySource} (hf : f ∈ bufferForms)
    (hready : ScheduleReady f.2.2 s) (hfit : BufferFits s) (hord : OrdinaryMemory s) (hans : MemoryAnswers s) :
    exec f.1 s = .next (bufferDone f.1.loopOrder f.2.1 f.2.2 s) := by
  obtain ⟨-, hbuf, -⟩ := bufferForm_facts f hf
  have hcov : (accept f.1 s).coversSideEffects = false := (coversSideEffects_iff s).mpr hord
  have hanswers : (accept f.1 s).refusedBlocks = [] := refusedBlocks_nil hans
  rw [exec_bufferForm hf hready hfit, bufferBody, hcov, if_neg Bool.false_ne_true, if_pos hanswers,
    transformMem, accept_subKeys, accept_of_not_expand (.inr hbuf)]
  rfl

/-! ### Encryption and decryption in place -/

/-- Two canonical memories that agree on the blocks of a range, and on the bytes outside it, are equal. -/
theorem Memory.eq_of_blocks {m m' : Memory} (h : m.wf = true) (h' : m'.wf = true) {a n : Nat}
    (hblk : ∀ i < n, loadBlock m (a + 8 * i) = loadBlock m' (a + 8 * i))
    (hout : ∀ c, ¬ (a ≤ c ∧ c < a + 8 * n) → m.read c = m'.read c) : m = m' := by
  refine Memory.eq_of_read h h' fun c => ?_
  by_cases hc : a ≤ c ∧ c < a + 8 * n
  · obtain ⟨i, k, hi, hk, rfl⟩ : ∃ i k, i < n ∧ k < 8 ∧ c = a + 8 * i + k :=
      ⟨(c - a) / 8, (c - a) % 8, by omega, by omega, by omega⟩
    rw [read_of_loadBlock m _ hk, read_of_loadBlock m' _ hk, hblk i hi]
  · exact hout c hc

/-- A decryption in place undoes an encryption in place with the same sub-keys, in any loop orders
(42_loop_strategy.md R174). -/
theorem transformBuffer_decrypt_encrypt (o o' : LoopOrder) (sk : Fin 32 → SubKeys) (a n : Nat) {m : Memory}
    (h : m.wf = true) :
    transformBuffer o' .decrypt sk a a n (transformBuffer o .encrypt sk a a n m) = m := by
  obtain ⟨hwf, hblk, hout⟩ := transformBuffer_spec o .encrypt sk (n := n) h (.inl (rfl : a = a))
  obtain ⟨hwf', hblk', hout'⟩ := transformBuffer_spec o' .decrypt sk (n := n) hwf (.inl (rfl : a = a))
  refine Memory.eq_of_blocks hwf' h (fun i hi => ?_) fun c hc => (hout' c hc).trans (hout c hc)
  rw [hblk' i hi, hblk i hi]
  exact (Proofs.blockTransformsAreInverse sk _).1

end Sys2Proof.Machine
end

section
/-! PROOFS. Statements of 42_loop_strategy.md: an ENC and a DEC in place. -/

namespace Sys2Proof.Proofs

open Sys2Proof.Machine Sys2Proof.Safety

/-- Settles O27: ENC leaves all that DEC checks as it was, both read the sub-keys of the raw key, and each block is
decrypted where it was encrypted. -/
theorem bufferCommandsRoundTrip : Obligations.BufferCommandsRoundTrip := by
  rintro ⟨e, -, kse⟩ he rfl ⟨d, -, ksd⟩ hd rfl s hwf hvalid hreadye hreadyd hsrc hfit hord hans
  have henc := exec_bufferForm_done he hreadye hfit hord hans
  have hdec := exec_bufferForm_done (s := bufferDone e.loopOrder .encrypt kse s) hd hreadyd hfit hord hans
  have hkeyse := subKeys_eq_rawSubKeys hvalid hreadye
  have hkeysd : (bufferDone e.loopOrder .encrypt kse s).subKeys ksd = rawSubKeys s.key :=
    subKeys_eq_rawSubKeys hvalid hreadyd
  refine ⟨_, _, henc, hdec, ?_⟩
  rw [bufferDone, hkeysd, bufferDone, hkeyse, hsrc]
  exact transformBuffer_decrypt_encrypt _ _ _ _ _ hwf

end Sys2Proof.Proofs
end

section
/-! SUPPORT. The register writes that a BUSY engine drops (10_state.md R45; 60_exceptions.md R211). -/

namespace Sys2Proof.Machine

open Sys2Proof.Safety

/-- The offsets of the operands and of CMD, in the order of 10_state.md R22. -/
def operandOffsets : List (BitVec 12) := [0x010, 0x014, 0x018, 0x01C, 0x020, 0x024, 0x030, 0x034, 0x038, 0x040]

/-- Each of them is aligned and names a register whose writes a BUSY engine drops. -/
theorem regAt_isOperand_of_mem_operandOffsets :
    ∀ offset ∈ operandOffsets, offset.toNat % 4 = 0 ∧ (regAt offset).isOperand = true := by
  decide

/-- A step of a BUSY engine that takes a write of CMD or of an operand: the write is dropped. -/
theorem step_wr_dropped {s : State} {offset : BitVec 12} {w : Word} {rest : List Event}
    (h : s.inbox = wr offset w :: rest) (h4 : offset.toNat % 4 = 0) (hr : (regAt offset).isOperand = true)
    (hb : s.status.busy = true) :
    step s = .next { s with inbox := rest, response := .written, status := { s.status with ovr := true } } := by
  rw [step_wr h h4, portWrite_dropped (s := { s with inbox := rest }) hr hb]

end Sys2Proof.Machine
end

section
/-! PROOFS. Statements of 60_exceptions.md: the writes that a BUSY engine drops. -/

namespace Sys2Proof.Proofs

open Sys2Proof.Machine Sys2Proof.Safety

/-- Settles O41: each of the ten offsets is aligned and names CMD or an operand, whose writes are dropped while BUSY. -/
theorem busyWritesAreDropped : Obligations.BusyWritesAreDropped := by
  intro s w rest hb offset hmem h
  obtain ⟨h4, hr⟩ := regAt_isOperand_of_mem_operandOffsets offset hmem
  exact step_wr_dropped h h4 hr hb

end Sys2Proof.Proofs
end

section
/-! SUPPORT. The decoder and the encoder (30_encoding.md R71, R76, R82, R83): the fields of a word are put together
again to the word, and the legal fields are those of the 20 commands. -/

namespace Sys2Proof.Machine

/-- The fields of a word, put together, are the word (30_encoding.md R71). -/
theorem joinFields_splitFields (w : Word) : joinFields (splitFields w) = w := by
  simp only [joinFields, splitFields]
  ext k hk
  simp only [BitVec.getElem_append, BitVec.getElem_extractLsb']
  repeat' split
  all_goals (rw [BitVec.getLsbD_eq_getElem (by omega)]; congr 1; omega)

/-- Every command's word decodes to it (30_encoding.md R82, R83). -/
theorem decode_encode (i : Instr) : decode (encode i) = .ok i := by cases i <;> rfl

/-- Every legal combination of OP, KSRC and ORDER is a row of the table (30_encoding.md R76, R82). -/
theorem exists_fields_of_legal : ∀ (op : BitVec 4) (ksrc : BitVec 2) (order : BitVec 1),
    CommandFields.legal { op := op, ksrc := ksrc, order := order, rsv := 0 } = true →
      ∃ i ∈ allInstrs, i.fields = { op := op, ksrc := ksrc, order := order, rsv := 0 } := by
  decide

/-- A legal word is the word of a command. -/
theorem exists_encode_of_legal {w : Word} (h : (splitFields w).legal = true) : ∃ i, encode i = w := by
  have hrsv : (splitFields w).rsv = 0 := by
    simp only [CommandFields.legal, Bool.and_eq_true, CommandFields.reservedClear, beq_iff_eq] at h
    exact h.1.1.1.1
  have hf : splitFields w = { (splitFields w) with rsv := 0 } := by rw [← hrsv]
  rw [hf] at h
  obtain ⟨i, -, hi⟩ := exists_fields_of_legal _ _ _ h
  exact ⟨i, by rw [encode, hi, ← hf, joinFields_splitFields]⟩

/-- A word that is not legal decodes to no command. -/
theorem legal_of_decode {w : Word} {i : Instr} (h : decode w = .ok i) : (splitFields w).legal = true := by
  by_contra hn
  simp only [decode, hn] at h
  cases h

/-- A word that decodes is the word of its command. -/
theorem encode_of_decode {w : Word} {i : Instr} (h : decode w = .ok i) : encode i = w := by
  obtain ⟨j, rfl⟩ := exists_encode_of_legal (legal_of_decode h)
  rw [decode_encode] at h
  cases h
  rfl

/-- A word decodes exactly if its fields are legal. -/
theorem exists_decode_iff_legal (w : Word) : (∃ i, decode w = .ok i) ↔ (splitFields w).legal = true := by
  refine ⟨fun ⟨_, h⟩ => legal_of_decode h, fun h => ?_⟩
  obtain ⟨i, rfl⟩ := exists_encode_of_legal h
  exact ⟨i, decode_encode i⟩

/-- OP is one of 1..6, one by one. -/
theorem opKnown_iff (op : BitVec 4) : 1 ≤ op.toNat ∧ op.toNat ≤ 6 ↔
    op = 1 ∨ op = 2 ∨ op = 3 ∨ op = 4 ∨ op = 5 ∨ op = 6 := by
  revert op
  decide

/-- Legality in plain words, clause by clause (30_encoding.md R76). -/
theorem legal_iff_clauses (f : CommandFields) : f.legal = true ↔
    f.rsv = 0 ∧ (f.op = 1 ∨ f.op = 2 ∨ f.op = 3 ∨ f.op = 4 ∨ f.op = 5 ∨ f.op = 6) ∧ f.ksrc ≠ 3 ∧
      (f.op = 1 ∨ f.op = 2 → f.ksrc = 0 ∧ f.order = 0) ∧ (f.op = 3 ∨ f.op = 4 → f.order = 0) := by
  simp only [CommandFields.legal, CommandFields.reservedClear, CommandFields.opKnown, CommandFields.keySourceKnown,
    CommandFields.expandPlain, CommandFields.blockUnordered, Bool.and_eq_true, Bool.or_eq_true, Bool.not_eq_true',
    Bool.or_eq_false_iff, beq_iff_eq, bne_iff_ne, decide_eq_true_eq, beq_eq_false_iff_ne, opKnown_iff, ← not_or,
    ← imp_iff_not_or, and_assoc]

end Sys2Proof.Machine
end

section
/-! PROOFS. Statements of 30_encoding.md: the decoder and the encoder. -/

namespace Sys2Proof.Proofs

open Sys2Proof.Machine Sys2Proof.Safety

/-- Settles O1: a legal word is put together from its fields, which are those of a row of the table. -/
theorem decodeEncodeAgree : Obligations.DecodeEncodeAgree :=
  ⟨fun i _ => decode_encode i, fun _ _ h => encode_of_decode h⟩

/-- Settles O2: each of the 20 words is that of its command; the four others are not legal. -/
theorem opcodeMapWordsDecode : Obligations.OpcodeMapWordsDecode := by
  refine ⟨⟨rfl, rfl, rfl, rfl, rfl, rfl, rfl, rfl⟩, ⟨rfl, rfl, rfl, rfl, rfl, rfl⟩, ⟨rfl, rfl, rfl, rfl, rfl, rfl⟩, ?_⟩
  have hillegal {w : Word} (hw : (splitFields w).legal = false) (i : Instr) : decode w ≠ .ok i :=
    fun h => Bool.eq_false_iff.mp hw (legal_of_decode h)
  simp only [List.forall_mem_cons]
  exact ⟨hillegal rfl, hillegal rfl, hillegal rfl, hillegal rfl, List.forall_mem_nil _⟩

/-- Settles O3: the clauses are those of `CommandFields.legal`. -/
theorem decodesExactlyLegalWords : Obligations.DecodesExactlyLegalWords := by
  intro w
  rw [exists_decode_iff_legal, legal_iff_clauses]
  rfl

end Sys2Proof.Proofs
end

section
/-! SUPPORT. The checks of a command, code by code (60_exceptions.md R203-R205, R209), and the state that each command
leaves, as an update of the state it runs on: ENCB and DECB, and ENC and DEC with their three ends. -/

namespace Sys2Proof.Machine

open Sys2Proof.Safety

variable {i j : Instr} {s t : State}

/-! ### The checks, code by code -/

/-- NOSCHED applies first (60_exceptions.md R203, R209). -/
theorem rejection_noSched (h : ¬ ScheduleReady i.keySource s) : rejection i s = some .noSched := by
  rw [rejection, if_pos ((lacksSchedule_iff _ _).mpr h)]

/-- With a valid schedule the other checks are left. -/
theorem rejection_of_ready (h : ScheduleReady i.keySource s) :
    rejection i s =
      if i.isBuffer && s.rangeFails then some .range
      else if i.isBuffer && s.overlapFails then some .overlap else none := by
  rw [rejection, if_neg fun hl => (lacksSchedule_iff _ _).mp hl h]

/-- RANGE applies next (60_exceptions.md R204, R209). -/
theorem rejection_range (hready : ScheduleReady i.keySource s) (hi : i.isBuffer = true) (hn : 0 < s.blocks)
    (h : 2 ^ 32 < s.src.toNat + 8 * s.blocks ∨ 2 ^ 32 < s.dst.toNat + 8 * s.blocks) :
    rejection i s = some .range := by
  rw [rejection_of_ready hready, hi, (rangeFails_iff s).mpr ⟨hn, h⟩]
  rfl

/-- OVERLAP applies last (60_exceptions.md R205, R209). -/
theorem rejection_overlap (hready : ScheduleReady i.keySource s) (hi : i.isBuffer = true) (hn : 0 < s.blocks)
    (hsrc : s.src.toNat + 8 * s.blocks ≤ 2 ^ 32) (hdst : s.dst.toNat + 8 * s.blocks ≤ 2 ^ 32) (hne : s.src ≠ s.dst)
    (hlo : s.src.toNat < s.dst.toNat + 8 * s.blocks) (hhi : s.dst.toNat < s.src.toNat + 8 * s.blocks) :
    rejection i s = some .overlap := by
  have hr : s.rangeFails = false := by
    rw [← Bool.not_eq_true, rangeFails_iff]
    omega
  rw [rejection_of_ready hready, hi, hr, (overlapFails_iff s).mpr ⟨hn, hne, hlo, hhi⟩]
  rfl

/-- No check rejects with the code NONE, or with BUS. -/
theorem rejection_ne {code : ErrCode} (h : rejection i s = some code) : code ≠ .none ∧ code ≠ .bus := by
  rcases rejection_code h with rfl | rfl | rfl <;> decide

/-- Of the command the checks read the family and whether the store it names is valid. -/
theorem rejection_congr_instr (hs : ScheduleReady i.keySource s ↔ ScheduleReady j.keySource s)
    (hb : i.isBuffer = j.isBuffer) : rejection i s = rejection j s := by
  by_cases h : ScheduleReady i.keySource s
  · rw [rejection_of_ready h, rejection_of_ready (hs.mp h), hb]
  · rw [rejection_noSched h, rejection_noSched (hs.not.mp h)]

/-! ### The families of commands exclude each other (30_encoding.md R72) -/

/-- ENCB and DECB are of no other family. -/
theorem family_of_isBlock (h : i.isBlock = true) : i ≠ .expf ∧ i ≠ .expp ∧ i.isBuffer = false := by
  revert h
  cases i <;> decide

/-- ENC and DEC are of no other family. -/
theorem family_of_isBuffer (h : i.isBuffer = true) : i ≠ .expf ∧ i ≠ .expp ∧ i.isBlock = false := by
  revert h
  cases i <;> decide

/-! ### The state that a command leaves -/

/-- A command that fails a check changes STATUS and the hidden command word only. -/
theorem exec_failed {code : ErrCode} (h : rejection i s = some code) :
    exec i s = .next { s with status := ended code s.status, cmd := 0 } := by
  rw [exec_of_rejected h, raiseError, if_neg (rejection_ne h).2]
  rfl

/-- The state after an ENCB or DECB: V0, V1 hold the transformed block, STATUS says so, and the hidden command word is
discarded (41_block_transform.md R129). -/
def blockDone (d : Direction) (ks : KeySource) (s : State) : State :=
  { s with
    v0 := (transformBlock d (s.subKeys ks) s.vBlock).v0
    v1 := (transformBlock d (s.subKeys ks) s.vBlock).v1
    status := completed s.status
    cmd := 0 }

/-- The state after an ENC or DEC that the memory refused a block: Dr is drawn, FADDR names a refused block
(60_exceptions.md R208). -/
def bufferAborted (s : State) : State :=
  { s with
    mem := drawBytes s.mem s.dst.toNat (8 * s.blocks) (s.draws + 1)
    faddr := BitVec.ofNat 32 (pickBlock s.refusedBlocks s.draws)
    status := ended .bus s.status
    cmd := 0
    draws := s.draws + 1 + 8 * s.blocks }

/-- The body of a block command on the accepted state. -/
theorem commandBody_block (hi : i.isBlock = true) (s : State) :
    commandBody i (accept i s) = .next (blockDone (Instr.direction i) i.keySource s) := by
  obtain ⟨hf, hp, -⟩ := family_of_isBlock hi
  rw [commandBody, if_neg hf, if_neg hp, if_pos hi, transformV, accept_subKeys, accept_of_not_expand (.inl hi)]
  rfl

/-- The body of a buffer command on the accepted state: it is refused, it completes, or it aborts. -/
theorem commandBody_buffer (hi : i.isBuffer = true) (s : State) :
    commandBody i (accept i s) =
      if s.coversSideEffects then .refused .sideEffectBuffer
      else if s.refusedBlocks = [] then .next (bufferDone i.loopOrder (Instr.direction i) i.keySource s)
      else .next (bufferAborted s) := by
  obtain ⟨hf, hp, hb⟩ := family_of_isBuffer hi
  have hdone : transformMem i.loopOrder (Instr.direction i) i.keySource (accept i s) =
      bufferDone i.loopOrder (Instr.direction i) i.keySource s := by
    rw [transformMem, accept_subKeys, accept_of_not_expand (.inr hi)]
    rfl
  have habort : abortBus (accept i s) = bufferAborted s := by
    rw [accept_of_not_expand (.inr hi)]
    rfl
  rw [commandBody, if_neg hf, if_neg hp, if_neg (Bool.eq_false_iff.mp hb), bufferBody, hdone, habort,
    accept_coversSideEffects, accept_refusedBlocks]

/-- The state after EXPF: RKF holds the expansion of KEY, and FV and STATUS say so (40_key_schedule.md R106). -/
def flatDone (s : State) : State :=
  { s with
    rkf := flatSchedule s.key
    rkfWritten := true
    status := { completed s.status with fv := true }
    cmd := 0 }

/-- The state after EXPP: RKP holds the paired expansion of KEY, and PV and STATUS say so (40_key_schedule.md R107). -/
def pairedDone (s : State) : State :=
  { s with
    rkp := pairedSchedule s.key
    rkpWritten := true
    status := { completed s.status with pv := true }
    cmd := 0 }

/-- `exec` of EXPF, which no check rejects. -/
theorem exec_expf (s : State) : exec .expf s = .next (flatDone s) := by
  rw [exec_of_accepted rfl]
  simp [commandBody, expandFlat, complete, accept, flatDone, completed]

/-- `exec` of EXPP, which no check rejects. -/
theorem exec_expp (s : State) : exec .expp s = .next (pairedDone s) := by
  rw [exec_of_accepted rfl]
  simp [commandBody, expandPaired, complete, accept, pairedDone, completed]

/-- `exec` of an ENCB or DECB that passes its checks. -/
theorem exec_block (hi : i.isBlock = true) (hr : rejection i s = none) :
    exec i s = .next (blockDone (Instr.direction i) i.keySource s) := by
  rw [exec_of_accepted hr, commandBody_block hi]

/-- `exec` of an ENC or DEC that passes its checks. -/
theorem exec_buffer (hi : i.isBuffer = true) (hr : rejection i s = none) :
    exec i s =
      if s.coversSideEffects then .refused .sideEffectBuffer
      else if s.refusedBlocks = [] then .next (bufferDone i.loopOrder (Instr.direction i) i.keySource s)
      else .next (bufferAborted s) := by
  rw [exec_of_accepted hr, commandBody_buffer hi]

/-- The ways in which a command ends, each with the state that it leaves. -/
inductive CommandEnd (i : Instr) (s : State) : State → Prop where
  /-- A check fails. -/
  | failed (code : ErrCode) (hr : rejection i s = some code) :
    CommandEnd i s { s with status := ended code s.status, cmd := 0 }
  /-- EXPF completes. -/
  | flat (hi : i = .expf) : CommandEnd i s (flatDone s)
  /-- EXPP completes. -/
  | paired (hi : i = .expp) : CommandEnd i s (pairedDone s)
  /-- ENCB or DECB completes. -/
  | block (hi : i.isBlock = true) (hr : rejection i s = none) :
    CommandEnd i s (blockDone (Instr.direction i) i.keySource s)
  /-- ENC or DEC completes. -/
  | buffer (hi : i.isBuffer = true) (hr : rejection i s = none) (hc : s.coversSideEffects = false)
      (hb : s.refusedBlocks = []) :
    CommandEnd i s (bufferDone i.loopOrder (Instr.direction i) i.keySource s)
  /-- ENC or DEC aborts. -/
  | aborted (hi : i.isBuffer = true) (hr : rejection i s = none) (hc : s.coversSideEffects = false)
      (hb : s.refusedBlocks ≠ []) :
    CommandEnd i s (bufferAborted s)

/-- An ENC or DEC that passes its checks and answers a next state completes or aborts. -/
theorem commandEnd_of_exec_buffer (hi : i.isBuffer = true) (hr : rejection i s = none) (h : exec i s = .next t) :
    CommandEnd i s t := by
  rw [exec_buffer hi hr] at h
  split at h
  next => cases h
  next hc =>
    split at h
    next hb =>
      cases h
      exact .buffer hi hr (Bool.eq_false_iff.mpr hc) hb
    next hb =>
      cases h
      exact .aborted hi hr (Bool.eq_false_iff.mpr hc) hb

/-- What `exec` answers in each of these ways. -/
theorem exec_of_commandEnd (h : CommandEnd i s t) : exec i s = .next t := by
  cases h with
  | failed code hr => exact exec_failed hr
  | flat hi => exact hi ▸ exec_expf s
  | paired hi => exact hi ▸ exec_expp s
  | block hi hr => exact exec_block hi hr
  | buffer hi hr hc hb => rw [exec_buffer hi hr, hc, if_neg Bool.false_ne_true, if_pos hb]
  | aborted hi hr hc hb => rw [exec_buffer hi hr, hc, if_neg Bool.false_ne_true, if_neg hb]

/-- These are all the next states that `exec` answers. -/
theorem commandEnd_of_exec (h : exec i s = .next t) : CommandEnd i s t := by
  cases hr : rejection i s with
  | some code =>
    cases (exec_failed hr).symm.trans h
    exact .failed code hr
  | none =>
    by_cases hf : i = .expf
    · subst hf
      cases (exec_expf s).symm.trans h
      exact .flat rfl
    by_cases hp : i = .expp
    · subst hp
      cases (exec_expp s).symm.trans h
      exact .paired rfl
    by_cases hb : i.isBlock = true
    · cases (exec_block hb hr).symm.trans h
      exact .block hb hr
    exact commandEnd_of_exec_buffer (isBuffer_of_not hf hp hb) hr h

/-- A command ends with BUSY = 0, DONE = 1 and the hidden command word discarded (10_state.md R42, R49). -/
theorem CommandEnd.idle (h : CommandEnd i s t) : t.status.busy = false ∧ t.status.done = true ∧ t.cmd = 0 := by
  cases h <;> exact ⟨rfl, rfl, rfl⟩

/-- An ENC or DEC that passes its checks and ends covers no location with read side effects. -/
theorem CommandEnd.ordinary (h : CommandEnd i s t) (hr : rejection i s = none) (hi : i.isBuffer = true) :
    s.coversSideEffects = false := by
  cases h with
  | failed code hr' => exact absurd (hr.symm.trans hr') (by simp)
  | flat he => exact absurd he (family_of_isBuffer hi).1
  | paired he => exact absurd he (family_of_isBuffer hi).2.1
  | block hb => exact absurd hb (Bool.eq_false_iff.mp (family_of_isBuffer hi).2.2)
  | buffer _ _ hc => exact hc
  | aborted _ _ hc => exact hc

/-- A buffer command that passes its checks has a buffer that fits. -/
theorem bufferFits_of_checked (hi : i.isBuffer = true) (hr : rejection i s = none) : BufferFits s :=
  ((rejection_eq_none_iff i s).mp hr).2 hi

/-- The events still to come and the last response do not matter to a command, and it keeps them. -/
theorem CommandEnd.io (h : CommandEnd i s t) (rest : List Event) (r : Response) :
    CommandEnd i { s with inbox := rest, response := r } { t with inbox := rest, response := r } := by
  cases h with
  | failed code hr => exact .failed (s := { s with inbox := rest, response := r }) code hr
  | flat hi => exact .flat hi
  | paired hi => exact .paired hi
  | block hi hr => exact .block hi hr
  | buffer hi hr hc hb => exact .buffer hi hr hc hb
  | aborted hi hr hc hb => exact .aborted hi hr hc hb

/-! ### The forms of ENCB, DECB, ENC and DEC -/

/-- `exec` of an ENCB or DECB whose schedule is valid. -/
theorem exec_blockForm_done {f : Instr × Direction × KeySource} (hf : f ∈ blockForms)
    (hready : ScheduleReady f.2.2 s) : exec f.1 s = .next (blockDone f.2.1 f.2.2 s) := by
  obtain ⟨hks, hblock, hbuffer, hdir, -⟩ := blockForm_facts f hf
  have hr : rejection f.1 s = none :=
    (rejection_eq_none_iff _ _).mpr ⟨hks ▸ hready, fun hi => absurd hi (by simp [hbuffer])⟩
  rw [exec_block hblock hr, hdir, hks]

/-- `exec` of an ENC or DEC that passes its checks: it is refused, it completes, or it aborts. -/
theorem exec_bufferForm_eq {f : Instr × Direction × KeySource} (hf : f ∈ bufferForms)
    (hready : ScheduleReady f.2.2 s) (hfit : BufferFits s) :
    exec f.1 s =
      if s.coversSideEffects then .refused .sideEffectBuffer
      else if s.refusedBlocks = [] then .next (bufferDone f.1.loopOrder f.2.1 f.2.2 s)
      else .next (bufferAborted s) := by
  obtain ⟨hks, hbuffer, -, hdir, -⟩ := bufferForm_facts f hf
  have hr : rejection f.1 s = none := (rejection_eq_none_iff _ _).mpr ⟨hks ▸ hready, fun _ => hfit⟩
  rw [exec_buffer hbuffer hr, hdir, hks]

/-- How an ENCB or DECB ends. -/
theorem exec_blockForm_next {f : Instr × Direction × KeySource} (hf : f ∈ blockForms) (h : exec f.1 s = .next t) :
    (∃ code, t = { s with status := ended code s.status, cmd := 0 }) ∨ t = blockDone f.2.1 f.2.2 s := by
  obtain ⟨hks, hblock, hbuffer, hdir, hne, hnp⟩ := blockForm_facts f hf
  cases commandEnd_of_exec h with
  | failed code => exact .inl ⟨code, rfl⟩
  | flat he => exact absurd he hne
  | paired he => exact absurd he hnp
  | block => exact .inr (by rw [hdir, hks])
  | buffer hb => exact absurd hb (Bool.eq_false_iff.mp hbuffer)
  | aborted hb => exact absurd hb (Bool.eq_false_iff.mp hbuffer)

/-- How an ENC or DEC ends. -/
theorem exec_bufferForm_next {f : Instr × Direction × KeySource} (hf : f ∈ bufferForms) (h : exec f.1 s = .next t) :
    (∃ code, code ≠ .none ∧ t = { s with status := ended code s.status, cmd := 0 }) ∨
      (BufferFits s ∧ t = bufferDone f.1.loopOrder f.2.1 f.2.2 s) ∨ t = bufferAborted s := by
  obtain ⟨hks, -, hblock, hdir, hne, hnp⟩ := bufferForm_facts f hf
  cases commandEnd_of_exec h with
  | failed code hr => exact .inl ⟨code, (rejection_ne hr).1, rfl⟩
  | flat he => exact absurd he hne
  | paired he => exact absurd he hnp
  | block hb => exact absurd hb (Bool.eq_false_iff.mp hblock)
  | buffer hi hr => exact .inr (.inl ⟨bufferFits_of_checked hi hr, by rw [hdir, hks]⟩)
  | aborted => exact .inr (.inr rfl)

/-- A buffer that is not ordinary memory covers a location with read side effects. -/
theorem coversSideEffects_of_not_ordinary (h : ¬ OrdinaryMemory s) : s.coversSideEffects = true := by
  rwa [← Bool.not_eq_false, coversSideEffects_iff]

/-! ### Commands that answer the same -/

/-- Two block commands, or two buffer commands of one order, of one direction. -/
abbrev SameButKeySource (i j : Instr) : Prop :=
  ((i.isBlock = true ∧ j.isBlock = true) ∨ (i.isBuffer = true ∧ j.isBuffer = true ∧ i.loopOrder = j.loopOrder)) ∧
    Instr.direction i = Instr.direction j

/-- Two such commands answer the same where the stores they name are valid and hold the same sub-keys. -/
theorem exec_congr_keySource (h : SameButKeySource i j) (hi : ScheduleReady i.keySource s)
    (hj : ScheduleReady j.keySource s) (hsub : s.subKeys i.keySource = s.subKeys j.keySource) :
    exec i s = exec j s := by
  obtain ⟨hfam, hdir⟩ := h
  have hbuf : i.isBuffer = j.isBuffer := by
    rcases hfam with ⟨hbi, hbj⟩ | ⟨hbi, hbj, -⟩
    · exact (family_of_isBlock hbi).2.2.trans (family_of_isBlock hbj).2.2.symm
    · exact hbi.trans hbj.symm
  have hrej : rejection i s = rejection j s := rejection_congr_instr (iff_of_true hi hj) hbuf
  cases hr : rejection i s with
  | some code => rw [exec_failed hr, exec_failed (hrej.symm.trans hr)]
  | none =>
    have hr' : rejection j s = none := hrej.symm.trans hr
    rcases hfam with ⟨hbi, hbj⟩ | ⟨hbi, hbj, hord⟩
    · rw [exec_block hbi hr, exec_block hbj hr', hdir, blockDone, blockDone, hsub]
    · rw [exec_buffer hbi hr, exec_buffer hbj hr', hdir, hord, bufferDone, bufferDone, hsub]

/-- The RAW, FLAT and PAIRED form of each command (41_block_transform.md R128). -/
def keySourceForms : List (Instr × Instr × Instr) :=
  [(.encbRaw, .encbFlat, .encbPaired), (.decbRaw, .decbFlat, .decbPaired),
   (.encRawBm, .encFlatBm, .encPairedBm), (.encRawRm, .encFlatRm, .encPairedRm),
   (.decRawBm, .decFlatBm, .decPairedBm), (.decRawRm, .decFlatRm, .decPairedRm)]

/-- What these forms are. -/
theorem keySourceForm_facts : ∀ f ∈ keySourceForms, f.1.keySource = .raw ∧
    (f.2.1.keySource = .flat ∧ SameButKeySource f.2.1 f.1) ∧
    (f.2.2.keySource = .paired ∧ SameButKeySource f.2.2 f.1) := by decide

/-- Under the schedule invariant a command whose schedule is valid answers what its RAW form answers. -/
theorem exec_eq_exec_raw (hvalid : SchedulesValid s) (h : SameButKeySource i j) (hi : ScheduleReady i.keySource s)
    (hj : j.keySource = .raw) : exec i s = exec j s := by
  have hready : ScheduleReady j.keySource s := hj ▸ trivial
  exact exec_congr_keySource h hi hready
    ((subKeys_eq_rawSubKeys hvalid hi).trans (subKeys_eq_rawSubKeys hvalid hready).symm)

/-- The block-major and round-major form of each buffer command (42_loop_strategy.md R154). -/
def loopOrderForms : List (Instr × Instr) :=
  [(.encRawBm, .encRawRm), (.encFlatBm, .encFlatRm), (.encPairedBm, .encPairedRm),
   (.decRawBm, .decRawRm), (.decFlatBm, .decFlatRm), (.decPairedBm, .decPairedRm)]

/-- What these forms are. -/
theorem loopOrderForm_facts : ∀ f ∈ loopOrderForms, f.2.isBuffer = true ∧ f.1.isBuffer = true ∧
    Instr.direction f.2 = Instr.direction f.1 ∧ f.2.keySource = f.1.keySource := by decide

/-- Both orders leave the same memory: they agree block by block, and change nothing outside Dr
(42_loop_strategy.md R154). -/
theorem transformBuffer_order (o o' : LoopOrder) (d : Direction) (sk : Fin 32 → SubKeys) {src dst n : Nat} {m : Memory}
    (h : m.wf = true) (hd : src = dst ∨ src + 8 * n ≤ dst ∨ dst + 8 * n ≤ src) :
    transformBuffer o d sk src dst n m = transformBuffer o' d sk src dst n m := by
  obtain ⟨hwf, hblk, hout⟩ := transformBuffer_spec o d sk h hd
  obtain ⟨hwf', hblk', hout'⟩ := transformBuffer_spec o' d sk h hd
  exact Memory.eq_of_blocks hwf hwf' (fun k hk => (hblk k hk).trans (hblk' k hk).symm)
    fun c hc => (hout c hc).trans (hout' c hc).symm

/-- Two buffer commands of one direction and one key source answer the same in either order. -/
theorem exec_congr_order (hwf : s.mem.wf = true) (hi : i.isBuffer = true) (hj : j.isBuffer = true)
    (hdir : Instr.direction i = Instr.direction j) (hks : i.keySource = j.keySource) : exec i s = exec j s := by
  have hrej : rejection i s = rejection j s := rejection_congr_instr (by rw [hks]) (hi.trans hj.symm)
  cases hr : rejection i s with
  | some code => rw [exec_failed hr, exec_failed (hrej.symm.trans hr)]
  | none =>
    have hfit : BufferFits s := bufferFits_of_checked hi hr
    rw [exec_buffer hi hr, exec_buffer hj (hrej.symm.trans hr), hdir, hks, bufferDone, bufferDone,
      transformBuffer_order i.loopOrder j.loopOrder _ _ hwf (fits_disjoint hfit)]

/-! ### No blocks (42_loop_strategy.md R171) -/

/-- With LEN < 8 there is no block. -/
theorem blocks_eq_zero (h : s.len.toNat < 8) : s.blocks = 0 := by
  rw [State.blocks, BitVec.extractLsb'_toNat, Nat.shiftRight_eq_div_pow]
  omega

/-- With no block S and Dr are empty. -/
theorem not_touches_of_no_blocks (h : s.blocks = 0) (a : Nat) : ¬ Touches s a := by
  unfold Touches
  omega

end Sys2Proof.Machine
end

section
/-! PROOFS. Statements of 40_key_schedule.md, 41_block_transform.md, 42_loop_strategy.md and 60_exceptions.md about
whole commands: how each ends, which commands answer the same, and what none of them changes. -/

namespace Sys2Proof.Proofs

open Sys2Proof.Machine Sys2Proof.Safety

/-! ### How a command ends -/

/-- Settles O6: the checks and the acceptance change nothing on the accepted state. -/
theorem acceptThenRunIsTheWholeCommand : Obligations.AcceptThenRunIsTheWholeCommand := by
  intro s i h
  rw [exec_of_accepted ((rejection_accept i s).trans h), accept_accept, exec_of_accepted h]

/-- Settles O9: the check that fails is the first that applies. -/
theorem commandStopsOnAFailedCheck : Obligations.CommandStopsOnAFailedCheck := by
  refine ⟨fun f hf s hs => ?_, fun f hf s hs hn h => ?_, fun f hf s hs hn hsrc hdst hne hlo hhi => ?_⟩
  · have hks : f.1.keySource = f.2.2 :=
      (List.mem_append.mp hf).elim (fun hb => (blockForm_facts f hb).1) fun hb => (bufferForm_facts f hb).1
    exact exec_failed (rejection_noSched (hks ▸ hs))
  · obtain ⟨hks, hbuffer, -⟩ := bufferForm_facts f hf
    exact exec_failed (rejection_range (hks ▸ hs) hbuffer hn h)
  · obtain ⟨hks, hbuffer, -⟩ := bufferForm_facts f hf
    exact exec_failed (rejection_overlap (hks ▸ hs) hbuffer hn hsrc hdst hne hlo hhi)

/-- Settles O13: RKF is FlatSchedule, in closed form. -/
theorem expfCompletes : Obligations.ExpfCompletes := fun s =>
  ⟨flatDone s, exec_expf s, rfl, flatSchedule_closed_form s.key⟩

/-- Settles O14: RKP is PairedSchedule, whose pairs are those of FlatSchedule. -/
theorem exppCompletes : Obligations.ExppCompletes := by
  refine fun s => ⟨pairedDone s, exec_expp s, rfl, fun r => ?_⟩
  obtain ⟨ha, hb⟩ := flatSchedule_closed_form s.key r
  rw [pairedDone, pairedSchedule, Vector.getElem_ofFn]
  exact ⟨ha, hb⟩

/-- Settles O19 by the end of the block forms. -/
theorem blockCommandsComplete : Obligations.BlockCommandsComplete := fun _ hf _ hready =>
  exec_blockForm_done hf hready

/-- Settles O20: SK_RAW in plain arithmetic; the two others are what the stores hold. -/
theorem subKeysByKeySource : Obligations.SubKeysByKeySource := by
  refine fun s r => ⟨?_, rfl, rfl⟩
  rw [State.subKeys, rawSubKeys_eq_rawPair, rawPair, evenKeyWord_eq_evenPick, oddKeyWord_eq_oddPick]

/-- Settles O24: no access is refused, and either order transforms block by block. -/
theorem bufferCommandsComplete : Obligations.BufferCommandsComplete := by
  intro f hf s hwf hready hfit hord hans
  obtain ⟨-, hblk, hout⟩ := transformBuffer_spec f.1.loopOrder f.2.1 (s.subKeys f.2.2) hwf (fits_disjoint hfit)
  exact ⟨_, exec_bufferForm_done hf hready hfit hord hans, rfl, hblk, fun c hc => hout c (by omega)⟩

/-- Settles O25: with no block the buffer fits, touches nothing, and is transformed to itself. -/
theorem zeroBlocksCompleteUntouched : Obligations.ZeroBlocksCompleteUntouched := by
  intro f hf s hlen
  have hn : s.blocks = 0 := blocks_eq_zero hlen
  refine ⟨fun hready => ?_, fun hs => commandStopsOnAFailedCheck.1 f (List.mem_append_right _ hf) s hs⟩
  rw [exec_bufferForm_done hf hready (.inl hn) (fun a ha => absurd ha (not_touches_of_no_blocks hn a))
    (fun a ha => absurd ha (not_touches_of_no_blocks hn a)), bufferDone, hn, transformBuffer_zero]

/-- Settles O29: the abort draws Dr and reports one of the refused blocks. -/
theorem refusedBlockAborts : Obligations.RefusedBlockAborts := by
  rintro f hf s hwf hready hfit hord ⟨a, ha⟩
  have hrefused : s.refusedBlocks ≠ [] := List.ne_nil_of_mem ((mem_refusedBlocks s a).mpr ha)
  have hexec : exec f.1 s = .next (bufferAborted s) := by
    rw [exec_bufferForm_eq hf hready hfit, (coversSideEffects_iff s).mpr hord, if_neg Bool.false_ne_true,
      if_neg hrefused]
  have hread := (drawBytes_spec hwf s.dst.toNat (8 * s.blocks) (s.draws + 1)).2
  refine ⟨_, pickBlock s.refusedBlocks s.draws, s.draws + 1, hexec,
    (mem_refusedBlocks s _).mp (pickBlock_mem hrefused s.draws), rfl, fun j hj => ?_, fun c hc => ?_⟩
  · rw [bufferAborted, hread, if_pos (by omega), Nat.add_sub_cancel_left]
  · rw [bufferAborted, hread, if_neg (by omega)]

/-! ### Commands that answer the same, and commands that undo each other -/

/-- Settles O21: the three forms of a command differ in the key source alone, and both stores hold SK_RAW. -/
theorem keyMaterialFormsAgree : Obligations.KeyMaterialFormsAgree := by
  intro s hvalid
  refine ⟨fun hfv => subKeys_eq_rawSubKeys (ks := .flat) hvalid hfv,
    fun hpv => subKeys_eq_rawSubKeys (ks := .paired) hvalid hpv, fun f hf => ?_⟩
  obtain ⟨hraw, ⟨hflat, hsameflat⟩, hpaired, hsamepaired⟩ := keySourceForm_facts f hf
  exact ⟨fun hfv => exec_eq_exec_raw hvalid hsameflat (hflat ▸ hfv) hraw,
    fun hpv => exec_eq_exec_raw hvalid hsamepaired (hpaired ▸ hpv) hraw⟩

/-- Settles O22: both commands read the sub-keys of the raw key, and the second undoes the first. -/
theorem blockCommandsRoundTrip : Obligations.BlockCommandsRoundTrip := by
  rintro ⟨e, -, kse⟩ he rfl ⟨d, -, ksd⟩ hd rfl s hvalid hreadye hreadyd
  have hkeyse := subKeys_eq_rawSubKeys hvalid hreadye
  have hkeysd : (blockDone .encrypt kse s).subKeys ksd = rawSubKeys s.key := subKeys_eq_rawSubKeys hvalid hreadyd
  have hback : transformBlock .decrypt ((blockDone .encrypt kse s).subKeys ksd) (blockDone .encrypt kse s).vBlock =
      s.vBlock := by
    rw [hkeysd, blockDone, hkeyse]
    exact (blockTransformsAreInverse _ _).1
  refine ⟨_, _, exec_blockForm_done he hreadye, exec_blockForm_done hd hreadyd, ?_, ?_⟩
  · exact congrArg Block.v0 hback
  · exact congrArg Block.v1 hback

/-- Settles O26: the two forms of each pair differ in the order alone. -/
theorem loopOrdersAgree : Obligations.LoopOrdersAgree := by
  intro s hwf f hf
  obtain ⟨hrm, hbm, hdir, hks⟩ := loopOrderForm_facts f hf
  exact exec_congr_order hwf hrm hbm hdir hks

/-- Settles O28: each block of Dr is one function of the block of S. -/
theorem equalBlocksGiveEqualBlocks : Obligations.EqualBlocksGiveEqualBlocks := by
  intro f hf s t hwf h herr i hi j hj heq
  rcases exec_bufferForm_next hf h with ⟨code, hne, rfl⟩ | ⟨hfit, rfl⟩ | rfl
  · exact absurd herr hne
  · obtain ⟨-, hblk, -⟩ := transformBuffer_spec f.1.loopOrder f.2.1 (s.subKeys f.2.2) hwf (fits_disjoint hfit)
    exact (hblk i hi).trans ((congrArg _ heq).trans (hblk j hj).symm)
  · exact absurd herr ErrCode.noConfusion

/-! ### What no command changes (92_eei_decisions.md D39) -/

/-- Settles O31, end by end: each writes other fields. -/
theorem commandsKeepOperands : Obligations.CommandsKeepOperands := by
  intro i s t h
  cases commandEnd_of_exec h <;> exact ⟨rfl, rfl, rfl, rfl, rfl, rfl, rfl, rfl, rfl⟩

/-- Settles O32: the state each leaves is given. -/
theorem expandFrame : Obligations.ExpandFrame := by
  refine ⟨fun s t h => ?_, fun s t h => ?_⟩
  · cases (exec_expf s).symm.trans h
    exact ⟨rfl, rfl, rfl, fun _ => rfl⟩
  · cases (exec_expp s).symm.trans h
    exact ⟨rfl, rfl, rfl, fun _ => rfl⟩

/-- Settles O33: a block command fails a check or completes. -/
theorem blockCommandFrame : Obligations.BlockCommandFrame := by
  intro f hf s t h
  rcases exec_blockForm_next hf h with ⟨code, rfl⟩ | rfl
  · exact ⟨rfl, rfl, rfl, rfl, fun _ => rfl⟩
  · exact ⟨rfl, rfl, rfl, rfl, fun _ => rfl⟩

/-- Settles O34: a buffer command fails a check, completes or aborts, and the last two write memory in Dr alone. -/
theorem bufferCommandFrame : Obligations.BufferCommandFrame := by
  intro f hf s t hwf h
  rcases exec_bufferForm_next hf h with ⟨code, -, rfl⟩ | ⟨hfit, rfl⟩ | rfl
  · exact ⟨rfl, rfl, rfl, rfl, fun _ => ⟨rfl, rfl⟩, fun _ _ => rfl⟩
  · obtain ⟨-, -, hout⟩ := transformBuffer_spec f.1.loopOrder f.2.1 (s.subKeys f.2.2) hwf (fits_disjoint hfit)
    exact ⟨rfl, rfl, rfl, rfl, fun _ => ⟨rfl, rfl⟩, fun c hc => hout c (by omega)⟩
  · have hread := (drawBytes_spec hwf s.dst.toNat (8 * s.blocks) (s.draws + 1)).2
    exact ⟨rfl, rfl, rfl, rfl, fun he => absurd rfl he, fun c hc => (hread c).trans (if_neg (by omega))⟩

end Sys2Proof.Proofs
end

section
/-! SUPPORT. The steps of the ENGINE, of the CMD write, of reset and of a host access to memory, each as one equation
(10_state.md R42; 60_exceptions.md R209; 70_reset_and_hazards.md R230, R240; 20_memory.md R66); and what a STATUS write
clears and the INTEN word shows. -/

namespace Sys2Proof.Machine

open Sys2Proof.Safety

variable {i : Instr} {s t : State} {w : Word} {rest : List Event}

/-! ### The ENGINE's step -/

/-- The ENGINE's step of a BUSY machine. -/
theorem engineStep_busy (hb : s.status.busy = true) (hd : decode s.cmd = .ok i) : engineStep s = exec i s := by
  simp only [engineStep, if_pos hb, hd]

/-- The ENGINE's step of an idle machine. -/
theorem engineStep_idle (hb : s.status.busy = false) : engineStep s = .next s := by
  simp [engineStep, hb]

/-- A step with an empty inbox. -/
theorem step_nil (h : s.inbox = []) : step s = engineStep s := by
  simp only [step, h]

/-- A step that takes the ENGINE's event. -/
theorem step_engine (h : s.inbox = .engine :: rest) : step s = engineStep { s with inbox := rest } := by
  simp only [step, h, deliver]

/-- A word of 32 bits as a number is that word again. -/
theorem ofNat_toNat_mod (w : Word) : BitVec.ofNat 32 (w.toNat % 2 ^ 32) = w := by
  rw [Nat.mod_eq_of_lt w.isLt, BitVec.ofNat_toNat, BitVec.setWidth_eq]

/-! ### The CMD write -/

/-- Acceptance, flag by flag (10_state.md R49). -/
theorem accept_eq (i : Instr) (s : State) :
    accept i s = { s with
      cmd := encode i
      status := { s.status with
        busy := true
        done := false
        err := .none
        fv := if i = .expf then false else s.status.fv
        pv := if i = .expp then false else s.status.pv } } := by
  have clear (b : Bool) (j : Instr) : (b && i != j) = if i = j then false else b := by
    by_cases h : i = j <;> simp [h]
  rw [accept, clear, clear]

/-- The submission of a checked command over ordinary memory: it is accepted. -/
theorem submit_accepted (hd : decode w = .ok i) (hr : rejection i s = none)
    (hc : i.isBuffer = true → s.coversSideEffects = false) : submit w s = .next (accept i s) := by
  rw [submit_of_checked hd hr, if_neg]
  rw [Bool.and_eq_true]
  rintro ⟨hi, hcov⟩
  exact absurd ((hc hi).symm.trans hcov) (by decide)

/-- The submission of a checked ENC or DEC over memory with read side effects: it is refused. -/
theorem submit_refused (hd : decode w = .ok i) (hr : rejection i s = none) (hi : i.isBuffer = true)
    (hc : s.coversSideEffects = true) : submit w s = .refused .sideEffectBuffer := by
  rw [submit_of_checked hd hr, hi, hc]
  rfl

/-! ### Reset and the host's accesses to memory -/

/-- A step that takes a reset. -/
theorem step_reset (h : s.inbox = .reset :: rest) : step s = resetEvent { s with inbox := rest } := by
  simp only [step, h, deliver]

/-- A step that takes a host read of memory. -/
theorem step_memRead {a : Word} (h : s.inbox = .memRead a :: rest) : step s = hostRead a { s with inbox := rest } := by
  simp only [step, h, deliver]

/-- A step that takes a host write of memory. -/
theorem step_memWrite {a : Word} {b : Byte} (h : s.inbox = .memWrite a b :: rest) :
    step s = hostWrite a b { s with inbox := rest } := by
  simp only [step, h, deliver]

/-- A host access that races is a fault. -/
theorem hostAccess_race {a : Word} (h : s.races a.toNat = true) (b : Byte) :
    hostRead a s = .fault .race ∧ hostWrite a b s = .fault .race := by
  simp [hostRead, hostWrite, h]

/-- A host access to ordinary memory that does not race is made. -/
theorem hostAccess_made {a : Word} (hr : s.races a.toNat = false) (hn : s.platform.hasSideEffects a.toNat = false)
    (b : Byte) :
    hostRead a s = .next { s with response := .byte (s.mem.read a.toNat) } ∧
      hostWrite a b s = .next { s with mem := s.mem.write a.toNat b, response := .byteWritten } := by
  simp [hostRead, hostWrite, hr, hn]

/-- A reset is taken unless a running ENC or DEC covers memory with read side effects. -/
theorem resetEvent_of_ordinary (h : s.bufferBusy = true → OrdinaryMemory s) :
    resetEvent s = .next (afterReset s) := by
  rw [resetEvent, if_neg]
  rw [Bool.and_eq_true]
  rintro ⟨hb, hcov⟩
  exact absurd (((coversSideEffects_iff s).mpr (h hb)).symm.trans hcov) (by decide)

/-- What a reset leaves of a machine that runs an ENC or DEC (70_reset_and_hazards.md R231). -/
theorem afterReset_of_bufferBusy (h : s.bufferBusy = true) :
    afterReset s = { State.reset with
      mem := drawBytes s.mem s.dst.toNat (8 * s.blocks) s.draws
      platform := s.platform
      inbox := s.inbox
      draws := s.draws + 8 * s.blocks } := by
  rw [afterReset, if_pos h]
  rfl

/-- What a reset leaves of another machine (70_reset_and_hazards.md R230). -/
theorem afterReset_of_not_bufferBusy (h : ¬ s.bufferBusy = true) :
    afterReset s = { State.reset with
      mem := s.mem
      platform := s.platform
      inbox := s.inbox
      draws := s.draws } := by
  rw [afterReset, if_neg h]

/-! ### The STATUS write and the INTEN word (10_state.md R25, R33) -/

/-- A STATUS write, flag by flag. -/
theorem writeStatus_eq (w : Word) (st : Status) :
    writeStatus w st = { st with
      done := if w.getLsbD 1 then false else st.done
      ovr := if w.getLsbD 4 then false else st.ovr } := by
  have clear (b c : Bool) : (b && !c) = if c then false else b := by cases c <;> simp
  rw [writeStatus, clear, clear]

/-- DONEIE stands in bit 0 of the INTEN word. -/
theorem intenWord_eq (donie : Bool) : intenWord donie = if donie then 1 else 0 := by
  cases donie <;> rfl

end Sys2Proof.Machine
end

section
/-! PROOFS. Statements of 10_state.md, 60_exceptions.md, 20_memory.md and 70_reset_and_hazards.md about single steps:
the ENGINE's, register accesses, the CMD write, memory accesses and reset. -/

namespace Sys2Proof.Proofs

open Sys2Proof.Machine Sys2Proof.Safety

/-! ### The ENGINE's step -/

/-- Settles O4: with no event, or with the ENGINE's, the step is the ENGINE's. -/
theorem stepRunsTheLatchedCommand : Obligations.StepRunsTheLatchedCommand := fun _ _ hb hd =>
  ⟨fun h => (step_nil h).trans (engineStep_busy hb hd), fun _ h => (step_engine h).trans (engineStep_busy hb hd)⟩

/-- Settles O5: the placed word is latched, BUSY is set, and the ENGINE's event comes first. -/
theorem stepRunsThePlacedWord : Obligations.StepRunsThePlacedWord := by
  intro s i
  rw [State.withFetchWord, ofNat_toNat_mod, step_engine rfl]
  exact engineStep_busy rfl (decode_encode i)

/-- Settles O52: with no event and BUSY = 0 the ENGINE's step changes nothing. -/
theorem idleEngineWaits : Obligations.IdleEngineWaits :=
  ⟨fun _ ⟨hin, hb⟩ => (step_nil hin).trans (engineStep_idle hb), rfl, rfl⟩

/-! ### The register port -/

/-- Settles O37: STATUS is no operand, so its write is taken, BUSY or not. -/
theorem statusWriteClearsDoneAndOvr : Obligations.StatusWriteClearsDoneAndOvr := by
  intro s w rest h
  rw [step_wr_offset (r := .status) h (.inl rfl), writeReg, writeStatus_eq]

/-- Settles O38: INTEN is no operand, so its write is taken, BUSY or not. -/
theorem intenHoldsDoneie : Obligations.IntenHoldsDoneie := fun _ _ =>
  ⟨fun _ h => step_wr_offset (r := .inten) h (.inl rfl),
    fun h => step_rd_offset (r := .inten) h (congrArg some (intenWord_eq _))⟩

/-- Settles O39: KEYj stands at its offset, and reads its value at all times. -/
theorem keyWriteClearsSchedules : Obligations.KeyWriteClearsSchedules := fun _ j _ =>
  ⟨fun _ hb h => step_wr_offset (r := .key j) h (.inr hb), fun h => step_rd_offset (r := .key j) h rfl⟩

/-- Settles O40, register by register. -/
theorem operandWritesStore : Obligations.OperandWritesStore := by
  refine ⟨fun s w rest hb => ?_, fun s rest hb => ?_⟩
  · have written {r : Reg} (h : s.inbox = wr r.offset w :: rest) := step_wr_offset h (.inr hb)
    exact ⟨written (r := .v0), written (r := .v1), written (r := .src), written (r := .dst), written (r := .len)⟩
  · have hruns : s.runs Instr.isBlock = false := runs_of_idle hb _
    exact ⟨(step_rd_offset (r := .status) · rfl), (step_rd_offset (r := .v0) · (readReg_v0_held hruns)),
      (step_rd_offset (r := .v1) · (readReg_v1_held hruns)), (step_rd_offset (r := .src) · rfl),
      (step_rd_offset (r := .dst) · rfl), (step_rd_offset (r := .len) · rfl), (step_rd_offset (r := .faddr) · rfl),
      (step_rd_offset (r := .cmd) · rfl)⟩

/-- Settles O42: FADDR and the words of the stores are no operands, and ignore a write. -/
theorem readOnlyWritesAreIgnored : Obligations.ReadOnlyWritesAreIgnored := by
  rintro s w offset rest (rfl | ⟨hl, hu, h4⟩) h
  · exact step_wr_offset (r := .faddr) h (.inl rfl)
  · rcases lt_or_ge offset.toNat 0x200 with hlt | hge
    · obtain ⟨i, hi⟩ := regAt_rkf_window hl hlt
      exact step_wr_taken h h4 hi (.inl rfl)
    · rcases regAt_rkp_window hge hu with ⟨r, hr⟩ | ⟨r, hr⟩
      · exact step_wr_taken h h4 hr (.inl rfl)
      · exact step_wr_taken h h4 hr (.inl rfl)

/-- Settles O44: an idle engine updates no store. -/
theorem storeWindowsRead : Obligations.StoreWindowsRead := by
  intro s rest hb
  refine ⟨fun hw i h => step_rd_offset (r := .rkf i) h (readReg_rkf_held (runs_of_idle hb _) hw i), fun hw r => ?_⟩
  obtain ⟨heven, hodd⟩ := readReg_rkp_held (runs_of_idle hb _) hw r
  exact ⟨(step_rd_offset (r := .rkpA r) · heven), (step_rd_offset (r := .rkpB r) · hodd)⟩

/-- Settles O45 by the reads of each window. -/
theorem unwrittenStoresReadDraws : Obligations.UnwrittenStoresReadDraws := by
  rintro s offset rest h4 (⟨hw, hl, hu⟩ | ⟨hw, hl, hu⟩) h
  · exact step_rd_rkf_window_draw h h4 hl hu (.inr hw)
  · exact step_rd_rkp_window_draw h h4 hl hu (.inr hw)

/-- Settles O48: DONE is bit 1 of the STATUS word, and DONEIE bit 0 of the INTEN word. -/
theorem irqIsDoneAndEnabled : Obligations.IrqIsDoneAndEnabled := by
  intro s
  have hdone : (statusWord s.status).getLsbD 1 = s.status.done := statusWord_getLsbD s.status 1
  have hdonie : (intenWord s.donie).getLsbD 0 = s.donie := by rw [intenWord_eq]; cases s.donie <;> rfl
  rw [hdone, hdonie, State.irq]

/-! ### The CMD write -/

/-- Settles O8: the step submits the word, which meets the checks in their order. -/
theorem cmdWriteIsCheckedInOrder : Obligations.CmdWriteIsCheckedInOrder := by
  refine ⟨fun s w rest hb h => step_wr_dropped h (by decide) (by decide) hb, fun s w rest hb h => ?_⟩
  rw [step_cmd h hb]
  refine ⟨fun e he => submit_of_illegal he, fun i hd => ⟨fun hs => submit_of_failed hd (rejection_noSched hs),
    fun hs hi hn hrange => submit_of_failed hd (rejection_range hs hi hn hrange),
    fun hs hi hn hsrc hdst hne hlo hhi => submit_of_failed hd (rejection_overlap hs hi hn hsrc hdst hne hlo hhi),
    fun hs hi hfit hord => ?_, fun hs hbuf => ?_⟩⟩
  · have hr : rejection i s = none := (rejection_eq_none_iff i s).mpr ⟨hs, fun _ => hfit⟩
    exact submit_refused hd hr hi (coversSideEffects_of_not_ordinary (s := s) hord)
  · have hr : rejection i s = none := (rejection_eq_none_iff i s).mpr ⟨hs, fun hi => (hbuf hi).1⟩
    have hcov (hi : i.isBuffer = true) : s.coversSideEffects = false := (coversSideEffects_iff s).mpr (hbuf hi).2
    rw [submit_accepted (s := { s with inbox := rest, response := .written }) hd hr hcov, accept_eq,
      encode_of_decode hd]

/-! ### Memory -/

/-- Settles O49: an access that meets a running ENC or DEC races; another is made where memory is ordinary. -/
theorem hostMemoryAccess : Obligations.HostMemoryAccess := by
  intro s a b rest hin
  rw [← races_iff s a.toNat, noneHolds_sideEffects_iff]
  refine ⟨fun hrace => ?_, fun hrace hn => ?_⟩
  · obtain ⟨hread, hwrite⟩ := hostAccess_race (s := { s with inbox := rest }) hrace b
    exact hin.elim (fun h => (step_memRead h).trans hread) fun h => (step_memWrite h).trans hwrite
  · obtain ⟨hread, hwrite⟩ := hostAccess_made (s := { s with inbox := rest }) (Bool.eq_false_iff.mpr hrace) hn b
    exact ⟨fun h => (step_memRead h).trans hread, fun h hwf =>
      ⟨_, (step_memWrite h).trans hwrite, rfl, Memory.read_write hwf a.toNat b⟩⟩

/-- Settles O30: the command, its CMD write and its reset each ask whether S or Dr covers such a location. -/
theorem sideEffectMemoryIsRefused : Obligations.SideEffectMemoryIsRefused := by
  rintro f hf s ⟨a, ha, hn⟩
  obtain ⟨hks, hbuffer, -⟩ := bufferForm_facts f hf
  have hcov : s.coversSideEffects = true := coversSideEffects_of_not_ordinary fun hord => hn (hord a ha)
  refine ⟨fun hready hfit => ⟨?_, fun rest hb h => ?_⟩, fun rest hb hd h => ?_⟩
  · rw [exec_bufferForm_eq hf hready hfit, if_pos hcov]
  · have hr : rejection f.1 s = none := (rejection_eq_none_iff _ _).mpr ⟨hks ▸ hready, fun _ => hfit⟩
    rw [step_cmd h hb]
    exact submit_refused (decode_encode f.1) hr hbuffer hcov
  · have hbusy : s.bufferBusy = true := (bufferBusy_iff s).mpr ⟨f.1, hb, hd, hbuffer⟩
    rw [step_reset h]
    exact if_pos (by rw [Bool.and_eq_true]; exact ⟨hbusy, hcov⟩)

/-- Settles O51: a reset draws Dr if ENC or DEC is running, and keeps memory if not. -/
theorem resetEventRestoresReset : Obligations.ResetEventRestoresReset := by
  intro s rest h hwf hord
  rw [← bufferBusy_iff] at hord ⊢
  have hstep : step s = .next (afterReset { s with inbox := rest }) :=
    (step_reset h).trans (resetEvent_of_ordinary (s := { s with inbox := rest }) hord)
  by_cases hb : s.bufferBusy = true
  · have hread := (drawBytes_spec hwf s.dst.toNat (8 * s.blocks) s.draws).2
    rw [afterReset_of_bufferBusy (s := { s with inbox := rest }) hb] at hstep
    refine ⟨_, s.draws, hstep, rfl, fun _ => ⟨fun j hj => ?_, fun c hc => ?_⟩, fun hn => absurd hb hn⟩
    · exact (hread _).trans (by rw [if_pos (by omega), Nat.add_sub_cancel_left])
    · exact (hread c).trans (if_neg (by omega))
  · rw [afterReset_of_not_bufferBusy (s := { s with inbox := rest }) hb] at hstep
    exact ⟨_, s.draws, hstep, rfl, fun hbusy => absurd hbusy hb, fun _ => rfl⟩

end Sys2Proof.Proofs
end

section
/-! SUPPORT. What a step can do to the machine, as one relation with a named case for each way (10_state.md R20), what a
running ENC or DEC that passed its checks means for its buffer, and a run through the polls of a WAIT. -/

namespace Sys2Proof.Machine

open Sys2Proof.Safety

variable {i : Instr} {s t : State}

/-! ### The effects of a step -/

/-- The ways in which a step changes the machine: `l` is the inbox that it finds, `s` the state with what it leaves of
the inbox. -/
inductive StepEffect (l : List Event) (s : State) : State → Prop where
  /-- The engine, the memory and the platform stay: a read, a bus error, an ignored write, an idle engine's step. -/
  | same {t : State} (h : SameEngine s t) : StepEffect l s t
  /-- DONE or OVR changes by a STATUS write or a dropped write; DONE is not set. -/
  | flags (d o : Bool) (hd : d = true → s.status.done = true) :
    StepEffect l s { s with status := { s.status with done := d, ovr := o }, response := .written }
  /-- An INTEN write. -/
  | inten (b : Bool) : StepEffect l s { s with donie := b, response := .written }
  /-- A KEYj write that is not dropped. -/
  | key (j : Fin 4) (w : Word) (hb : s.status.busy = false) (hl : l = wr (Reg.key j).offset w :: s.inbox) :
    StepEffect l s
      { s with key := s.key.set j.val w, status := { s.status with fv := false, pv := false }, response := .written }
  /-- A write of V0, V1, SRC, DST or LEN that is not dropped. -/
  | operands (a b c d e : Word) (hb : s.status.busy = false) :
    StepEffect l s { s with v0 := a, v1 := b, src := c, dst := d, len := e, response := .written }
  /-- A CMD write that is rejected. -/
  | rejected (code : ErrCode) (hb : s.status.busy = false) :
    StepEffect l s (reject code { s with response := .written })
  /-- A CMD write that is accepted. -/
  | accepted (i : Instr) (hb : s.status.busy = false) (hl : l = wr 0x040 (encode i) :: s.inbox)
      (hr : rejection i s = none) (ho : i.isBuffer = true → OrdinaryMemory s) :
    StepEffect l s (accept i { s with response := .written })
  /-- A host write of memory. -/
  | hostWrite (a : Word) (b : Byte) :
    StepEffect l s { s with mem := s.mem.write a.toNat b, response := .byteWritten }
  /-- The running command ends. -/
  | command {t : State} (i : Instr) (hb : s.status.busy = true) (hd : decode s.cmd = .ok i) (h : CommandEnd i s t) :
    StepEffect l s t
  /-- A latched word that is no command is reported (log entry 10). -/
  | illegal (hb : s.status.busy = true) : StepEffect l s (raiseError .illegal 0 s)
  /-- A reset. -/
  | reset (hl : l = .reset :: s.inbox) : StepEffect l s (afterReset s)

/-- What the ENGINE's step does. -/
theorem stepEffect_of_engineStep (l : List Event) (h : engineStep s = .next t) : StepEffect l s t := by
  rcases engineStep_next h with ⟨-, rfl⟩ | ⟨hb, ⟨i, hd, hexec⟩ | ⟨e, -, rfl⟩⟩
  · exact .same rfl
  · exact .command i hb hd (commandEnd_of_exec hexec)
  · exact .illegal hb

/-- What a CMD write with BUSY = 0 does. -/
theorem stepEffect_of_submit {w : Word} (hb : s.status.busy = false)
    (h : submit w { s with response := .written } = .next t) : StepEffect (wr 0x040 w :: s.inbox) s t := by
  rcases submit_next h with ⟨code, rfl⟩ | ⟨i, hd, hr, hc, rfl⟩
  · exact .rejected code hb
  · exact .accepted i hb (by rw [encode_of_decode hd]) hr fun hi => (coversSideEffects_iff s).mp (hc hi)

/-- What a legal register write does. -/
theorem stepEffect_of_portWrite {o : BitVec 12} {w : Word} (h4 : o.toNat % 4 = 0)
    (h : portWrite (regAt o) w s = .next t) : StepEffect (wr o w :: s.inbox) s t := by
  have hoffset {r : Reg} (hr : regAt o = r) (hne : r ≠ .reserved) : o = r.offset :=
    hr ▸ ((offset_regAt h4).resolve_left (hr ▸ hne)).symm
  rcases portWrite_next h with ⟨-, -, rfl⟩ | ⟨-, rfl⟩ | ⟨-, rfl⟩ | ⟨hb, j, hr, rfl⟩ | ⟨hb, a, b, c, d, e, rfl⟩ |
    ⟨hb, hr, hsub⟩ | rfl
  · exact .flags s.status.done true id
  · exact .flags _ _ fun hd => (Bool.and_eq_true_iff.mp hd).1
  · exact .inten _
  · exact .key j w hb (by rw [hoffset hr nofun])
  · exact .operands a b c d e hb
  · rw [hoffset hr nofun]
    exact stepEffect_of_submit hb hsub
  · exact .same rfl

/-- What a step does. -/
theorem stepEffect_of_step (h : step s = .next t) : ∃ rest, StepEffect s.inbox { s with inbox := rest } t := by
  rcases step_cases h with ⟨rest, -, hengine⟩ | ⟨e, rest, hin, hsame | ⟨w, o, rfl, h4, hw⟩ | ⟨a, b, -, -, rfl⟩ |
    ⟨rfl, -, rfl⟩⟩ <;> refine ⟨rest, ?_⟩
  · exact stepEffect_of_engineStep _ hengine
  · exact .same hsame
  · rw [hin]
    exact stepEffect_of_portWrite h4 hw
  · exact .hostWrite a b
  · exact .reset hin

/-! ### What an effect keeps, and what it changes -/

/-- BUSY is set by an accepted command alone: in every other case it is 0 afterwards, or what it was. -/
theorem StepEffect.busy_set {l : List Event} (h : StepEffect l s t) (hs : s.status.busy = false)
    (ht : t.status.busy = true) : ∃ i, l = wr 0x040 (encode i) :: s.inbox ∧ rejection i s = none ∧
      (i.isBuffer = true → OrdinaryMemory s) := by
  have unset {b : Bool} (h : b = false) (h' : b = true) : False := Bool.noConfusion (h.symm.trans h')
  cases h with
  | accepted i _ hl hr ho => exact ⟨i, hl, hr, ho⟩
  | same h => rw [h] at ht; exact (unset hs ht).elim
  | command _ hb => exact (unset hs hb).elim
  | illegal hb => exact (unset hs hb).elim
  | reset => exact (unset rfl ht).elim
  | _ => exact (unset hs ht).elim

/-- A command sets FV only if it is EXPF, and PV only if it is EXPP. -/
theorem CommandEnd.flags_set (h : CommandEnd i s t) :
    (t.status.fv = true → s.status.fv = true ∨ i = .expf) ∧ (t.status.pv = true → s.status.pv = true ∨ i = .expp) := by
  cases h with
  | flat hi => exact ⟨fun _ => .inr hi, .inl⟩
  | paired hi => exact ⟨.inl, fun _ => .inr hi⟩
  | _ => exact ⟨.inl, .inl⟩

/-- FV and PV are set by the end of the running command alone. -/
theorem StepEffect.flags_set {l : List Event} (h : StepEffect l s t) :
    (t.status.fv = true → s.status.fv = true ∨
      (s.status.busy = true ∧ decode s.cmd = .ok .expf ∧ t.status.busy = false ∧ t.status.done = true)) ∧
    (t.status.pv = true → s.status.pv = true ∨
      (s.status.busy = true ∧ decode s.cmd = .ok .expp ∧ t.status.busy = false ∧ t.status.done = true)) := by
  cases h with
  | command i hb hd he =>
    obtain ⟨hfv, hpv⟩ := he.flags_set
    obtain ⟨hbusy, hdone, -⟩ := he.idle
    exact ⟨fun h => (hfv h).imp_right fun hi => ⟨hb, hd.trans (congrArg Except.ok hi), hbusy, hdone⟩,
      fun h => (hpv h).imp_right fun hi => ⟨hb, hd.trans (congrArg Except.ok hi), hbusy, hdone⟩⟩
  | accepted => exact ⟨fun h => .inl (Bool.and_eq_true_iff.mp h).1, fun h => .inl (Bool.and_eq_true_iff.mp h).1⟩
  | key => exact ⟨fun h => Bool.noConfusion h, fun h => Bool.noConfusion h⟩
  | reset => exact ⟨fun h => Bool.noConfusion h, fun h => Bool.noConfusion h⟩
  | same h => rw [h]; exact ⟨.inl, .inl⟩
  | _ => exact ⟨.inl, .inl⟩

/-- FADDR changes by an abort of the running command or by a reset alone. -/
theorem StepEffect.faddr_changed {l : List Event} (h : StepEffect l s t) :
    t.faddr = s.faddr ∨ (s.status.busy = true ∧ t.status.err = .bus ∧ t.status.done = true) ∨
      l = .reset :: s.inbox := by
  cases h with
  | command i hb hd he =>
    cases he with
    | aborted => exact .inr (.inl ⟨hb, rfl, rfl⟩)
    | _ => exact .inl rfl
  | reset hl => exact .inr (.inr hl)
  | same h => rw [h]; exact .inl rfl
  | _ => exact .inl rfl

/-- KEY changes by a KEYj write to an idle engine or by a reset alone. -/
theorem StepEffect.key_changed {l : List Event} (h : StepEffect l s t) :
    t.key = s.key ∨ l = .reset :: s.inbox ∨
      (s.status.busy = false ∧ t.status.fv = false ∧ t.status.pv = false ∧
        ∃ j w, l = wr (Reg.key j).offset w :: s.inbox ∧ t.key = s.key.set j.val w) := by
  cases h with
  | key j w hb hl => exact .inr (.inr ⟨hb, rfl, rfl, j, w, hl, rfl⟩)
  | reset hl => exact .inr (.inl hl)
  | command i hb hd he => exact .inl (Proofs.commandsKeepOperands i s t (exec_of_commandEnd he)).1
  | same h => rw [h]; exact .inl rfl
  | _ => exact .inl rfl

/-! ### The schedule validity invariant (10_state.md R48) -/

/-- A command keeps it: an expansion makes its store valid, and no other command writes a store or a flag. -/
theorem CommandEnd.schedulesValid (h : CommandEnd i s t) (hv : SchedulesValid s) : SchedulesValid t := by
  cases h with
  | flat => exact ⟨fun _ => ⟨rfl, rfl⟩, hv.2⟩
  | paired => exact ⟨hv.1, fun _ => ⟨rfl, rfl⟩⟩
  | _ => exact hv

/-- An effect keeps it: a KEYj write and a reset clear both flags, acceptance sets none. -/
theorem StepEffect.schedulesValid {l : List Event} (h : StepEffect l s t) (hv : SchedulesValid s) :
    SchedulesValid t := by
  cases h with
  | key => exact ⟨fun h => Bool.noConfusion h, fun h => Bool.noConfusion h⟩
  | reset => exact ⟨fun h => Bool.noConfusion h, fun h => Bool.noConfusion h⟩
  | accepted =>
    exact ⟨fun h => hv.1 (Bool.and_eq_true_iff.mp h).1, fun h => hv.2 (Bool.and_eq_true_iff.mp h).1⟩
  | command i _ _ he => exact he.schedulesValid hv
  | same h => rw [h]; exact hv
  | _ => exact hv

/-! ### The invariant of the running command -/

/-- For a BUSY engine it says what runs. -/
theorem runningLegal_busy (h : s.status.busy = true) : RunningLegal s ↔
    ∃ i, decode s.cmd = .ok i ∧ rejection i s = none ∧ (i.isBuffer = true → OrdinaryMemory s) ∧
      s.status.done = false ∧ s.status.err = .none ∧
      (i = .expf → s.status.fv = false) ∧ (i = .expp → s.status.pv = false) := by
  rw [RunningLegal, if_pos h]

/-- For an idle engine it says that the command word is discarded. -/
theorem runningLegal_idle (h : s.status.busy = false) : RunningLegal s ↔ s.cmd = 0 := by
  rw [RunningLegal, if_neg (Bool.eq_false_iff.mp h)]

/-- An idle engine stays idle with the word discarded. -/
theorem runningLegal_of_idle (hl : RunningLegal s) (hs : s.status.busy = false) (ht : t.status.busy = false)
    (hcmd : t.cmd = s.cmd) : RunningLegal t :=
  (runningLegal_idle ht).mpr (hcmd.trans ((runningLegal_idle hs).mp hl))

/-- An accepted command meets it. -/
theorem runningLegal_accept (hr : rejection i s = none) (ho : i.isBuffer = true → OrdinaryMemory s) :
    RunningLegal (accept i s) := by
  refine (runningLegal_busy rfl).mpr
    ⟨i, decode_encode i, (rejection_accept i s).trans hr, ho, rfl, rfl, ?_, ?_⟩ <;> (rintro rfl; simp)

/-- A write to STATUS, which sets no DONE, keeps it. -/
theorem runningLegal_flags {d o : Bool} {r : Response} (hl : RunningLegal s) (hd : d = true → s.status.done = true) :
    RunningLegal { s with status := { s.status with done := d, ovr := o }, response := r } := by
  cases hb : s.status.busy with
  | false => exact runningLegal_of_idle hl hb hb rfl
  | true =>
    obtain ⟨i, hdec, hr, ho, hdone, herr, hexp⟩ := (runningLegal_busy hb).mp hl
    have hclear : d = false := Bool.eq_false_iff.mpr fun h => Bool.noConfusion (hdone.symm.trans (hd h))
    refine (runningLegal_busy ?_).mpr ⟨i, hdec, hr, ho, hclear, herr, hexp⟩
    exact hb

/-- An effect keeps it. -/
theorem StepEffect.runningLegal {l : List Event} (h : StepEffect l s t) (hl : RunningLegal s) : RunningLegal t := by
  cases h with
  | flags _ _ hd => exact runningLegal_flags hl hd
  | accepted i _ _ hr ho => exact runningLegal_accept (s := { s with response := .written }) hr ho
  | command i _ _ he =>
    obtain ⟨hbusy, -, hcmd⟩ := he.idle
    exact (runningLegal_idle hbusy).mpr hcmd
  | illegal => exact (runningLegal_idle rfl).mpr rfl
  | reset => exact (runningLegal_idle rfl).mpr rfl
  | key _ _ hb => exact runningLegal_of_idle hl hb hb rfl
  | operands _ _ _ _ _ hb => exact runningLegal_of_idle hl hb hb rfl
  | rejected _ hb => exact runningLegal_of_idle hl hb hb rfl
  | same h => rw [h]; exact hl
  | _ => exact hl

/-! ### The memory invariant (20_memory.md R51) -/

/-- A Dr that fits lies below 2^32, or is empty. -/
theorem dest_inSpace_of_fits (h : BufferFits s) :
    8 * s.blocks = 0 ∨ s.dst.toNat + 8 * s.blocks ≤ Config.addressSpace := by
  rcases h with h | ⟨-, h, -⟩
  · exact .inl (by omega)
  · exact .inr h

/-- Draws into a Dr that fits keep memory canonical and within its space. -/
theorem drawBytes_dest_canonical (h : MemoryCanonical s) (hfit : BufferFits s) (first : Nat) :
    (drawBytes s.mem s.dst.toNat (8 * s.blocks) first).wf = true ∧
      (drawBytes s.mem s.dst.toNat (8 * s.blocks) first).inSpace = true :=
  ⟨(drawBytes_spec h.1 _ _ _).1, drawBytes_inSpace h.2 _ _ _ (dest_inSpace_of_fits hfit)⟩

/-- The buffer of a running ENC or DEC fits. -/
theorem bufferFits_of_running (hl : RunningLegal s) (h : s.bufferBusy = true) : BufferFits s := by
  obtain ⟨i, hb, hd, hi⟩ := (bufferBusy_iff s).mp h
  obtain ⟨j, hd', hr, -⟩ := (runningLegal_busy hb).mp hl
  cases hd.symm.trans hd'
  exact bufferFits_of_checked hi hr

/-- A command keeps it: it checks that its buffer fits before it writes memory. -/
theorem CommandEnd.memoryCanonical (h : CommandEnd i s t) (hm : MemoryCanonical s) : MemoryCanonical t := by
  cases h with
  | buffer hi hr =>
    have hdst := dest_inSpace_of_fits (bufferFits_of_checked hi hr)
    exact transformBuffer_keeps _ _ _ hm.1 hm.2 (by omega)
  | aborted hi hr => exact drawBytes_dest_canonical hm (bufferFits_of_checked hi hr) _
  | _ => exact hm

/-- A reset keeps it, where a running ENC or DEC has passed its checks. -/
theorem memoryCanonical_afterReset (hm : MemoryCanonical s) (hl : RunningLegal s) : MemoryCanonical (afterReset s) := by
  by_cases hb : s.bufferBusy = true
  · rw [afterReset_of_bufferBusy hb]
    exact drawBytes_dest_canonical hm (bufferFits_of_running hl hb) _
  · rw [afterReset_of_not_bufferBusy hb]
    exact hm

/-- An effect keeps it: the host writes addresses of 32 bits. -/
theorem StepEffect.memoryCanonical {l : List Event} (h : StepEffect l s t) (hm : MemoryCanonical s)
    (hl : RunningLegal s) : MemoryCanonical t := by
  cases h with
  | hostWrite a b => exact ⟨Memory.write_wf _ _ hm.1, Memory.write_inSpace _ a.isLt hm.2⟩
  | command i _ _ he => exact he.memoryCanonical hm
  | reset => exact memoryCanonical_afterReset hm hl
  | same h => rw [h]; exact hm
  | _ => exact hm

/-! ### Runs (30_encoding.md R81) -/

/-- The ENGINE's step of an accepted command is the whole command. -/
theorem engineStep_accept (hr : rejection i s = none) (h : exec i s = .next t) :
    engineStep (accept i s) = .next t := by
  rw [engineStep_busy (s := accept i s) rfl (decode_encode i), Proofs.acceptThenRunIsTheWholeCommand s i hr, h]

/-- A run through the polls of a WAIT changes only the events still to come and the last response. -/
theorem run_polls {s : State} {polls : Nat} {rest : List Event}
    (h : s.inbox = List.replicate polls (rdEvent .status) ++ rest) :
    ∃ r, ∀ k, Sys2Proof.core.run (polls + k) s = Sys2Proof.core.run k { s with inbox := rest, response := r } := by
  induction polls generalizing s with
  | zero =>
    have hs : s = { s with inbox := rest, response := s.response } := by rw [← show s.inbox = rest from h]
    exact ⟨s.response, fun k => by rw [Nat.zero_add, ← hs]⟩
  | succ polls ih =>
    have hstep := step_rd_offset (r := .status) (s := s)
      (rest := List.replicate polls (rdEvent .status) ++ rest) h rfl
    obtain ⟨r, hr⟩ := ih (s := { s with
      inbox := List.replicate polls (rdEvent .status) ++ rest, response := .data (statusWord s.status) }) rfl
    exact ⟨r, fun k => by rw [Nat.succ_add, core_run_after_next hstep, hr]⟩

end Sys2Proof.Machine
end

section
/-! PROOFS. Statements of 10_state.md, 20_memory.md and 30_encoding.md about every step: what sets a flag or changes a
register, and the three invariants; and the run of one command. -/

namespace Sys2Proof.Proofs

open Sys2Proof.Machine Sys2Proof.Safety

/-! ### Invariants -/

/-- Settles O57, effect by effect. -/
theorem stepKeepsSchedulesValid : Obligations.StepKeepsSchedulesValid := by
  intro s t hv h
  obtain ⟨rest, he⟩ := stepEffect_of_step h
  exact he.schedulesValid hv

/-- Settles O58, effect by effect; only the reset of a running ENC or DEC needs that it passed its checks. -/
theorem stepKeepsMemoryCanonical : Obligations.StepKeepsMemoryCanonical := by
  intro s t hm hl h
  obtain ⟨rest, he⟩ := stepEffect_of_step h
  exact he.memoryCanonical hm hl

/-- Settles O59, effect by effect. -/
theorem stepKeepsRunningLegal : Obligations.StepKeepsRunningLegal := by
  intro s t hl h
  obtain ⟨rest, he⟩ := stepEffect_of_step h
  exact he.runningLegal hl

/-- Settles O60: both flags are 0, memory lists nothing, and the engine is idle with the word 0. -/
theorem resetMeetsTheInvariants : Obligations.ResetMeetsTheInvariants :=
  ⟨⟨nofun, nofun⟩, ⟨rfl, rfl⟩, rfl⟩

/-! ### What sets a flag or changes a register -/

/-- Settles O53: the effect that sets BUSY is an acceptance. -/
theorem busyIsSetOnlyByAnAcceptedCmdWrite : Obligations.BusyIsSetOnlyByAnAcceptedCmdWrite := by
  intro s t h hs ht
  obtain ⟨rest, he⟩ := stepEffect_of_step h
  obtain ⟨i, hl, hr, ho⟩ := he.busy_set hs ht
  obtain ⟨hready, hfit⟩ := (rejection_eq_none_iff i _).mp hr
  exact ⟨encode i, i, rest, hl, decode_encode i, hready, fun hi => ⟨hfit hi, ho hi⟩⟩

/-- Settles O54: the effect that sets FV or PV is the end of its expansion. -/
theorem validityFlagsAreSetOnlyByExpansion : Obligations.ValidityFlagsAreSetOnlyByExpansion := by
  intro s t h
  obtain ⟨rest, he⟩ := stepEffect_of_step h
  obtain ⟨hfv, hpv⟩ := he.flags_set
  exact ⟨fun hs ht => (hfv ht).resolve_left (Bool.eq_false_iff.mp hs),
    fun hs ht => (hpv ht).resolve_left (Bool.eq_false_iff.mp hs)⟩

/-- Settles O55: the effect that changes FADDR is an abort or a reset. -/
theorem faddrChangesOnlyOnBusOrReset : Obligations.FaddrChangesOnlyOnBusOrReset := by
  intro s t h hne
  obtain ⟨rest, he⟩ := stepEffect_of_step h
  exact (he.faddr_changed.resolve_left hne).imp_right fun hl => ⟨rest, hl⟩

/-- Settles O56: the effect that changes KEY is a KEYj write or a reset. -/
theorem keyChangesOnlyByHostWrite : Obligations.KeyChangesOnlyByHostWrite := by
  intro s t h hne
  obtain ⟨rest, he⟩ := stepEffect_of_step h
  rcases he.key_changed.resolve_left hne with hl | ⟨hb, hfv, hpv, j, w, hl, hkey⟩
  · exact .inl ⟨rest, hl⟩
  · exact .inr ⟨hb, hfv, hpv, j, w, rest, hl, hkey⟩

/-! ### The run of one command -/

/-- Settles O7: the CMD write is accepted, the polls change nothing, the ENGINE's step ends the command, and the last
read gets its STATUS word. -/
theorem runLineCompletesTheCommand : Obligations.RunLineCompletesTheCommand := by
  intro s t i polls hb hr hexec hin
  have hend := commandEnd_of_exec hexec
  obtain ⟨r, hpolls⟩ := run_polls (polls := polls) (rest := [.engine, rdEvent .status])
    (s := accept i { s with inbox := waitEvents polls, response := .written }) rfl
  have haccept : step s = .next (accept i { s with inbox := waitEvents polls, response := .written }) :=
    (step_cmd (s := s) hin hb).trans (submit_accepted (decode_encode i) hr (hend.ordinary hr))
  have hengine : step (accept i { s with inbox := [.engine, rdEvent .status], response := r }) =
      .next { t with inbox := [rdEvent .status], response := r } := by
    rw [step_engine rfl]
    exact engineStep_accept (s := { s with inbox := [rdEvent .status], response := r }) hr
      (exec_of_commandEnd (hend.io _ _))
  have hread : step { t with inbox := [rdEvent .status], response := r } =
      .next { t with inbox := [], response := .data (statusWord t.status) } :=
    step_rd_offset (r := .status) rfl rfl
  refine ⟨_, ?_, rfl, hend.idle.1⟩
  calc Sys2Proof.core.run (polls + 3) s
      = Sys2Proof.core.run (polls + 2) (accept i { s with inbox := waitEvents polls, response := .written }) :=
        core_run_after_next haccept
    _ = Sys2Proof.core.run 2 (accept i { s with inbox := [.engine, rdEvent .status], response := r }) := hpolls 2
    _ = Sys2Proof.core.run 1 { t with inbox := [rdEvent .status], response := r } := core_run_after_next hengine
    _ = .next { t with inbox := [], response := .data (statusWord t.status) } := core_run_after_next hread

end Sys2Proof.Proofs
end
